-- ==== Sys2Proof/Word.lean ====
section
/-! DEFINITION. The word and byte types of the core (00_scope.md R20, R22). -/

namespace Sys2Proof

/-- `Word16`: registers, memory cells, addresses and instructions are all 16 bits (R20). -/
abbrev Word := BitVec 16

/-- A keyboard byte or an output character (R45, R49). -/
abbrev Byte := BitVec 8

end Sys2Proof
end

