-- ==== Sys2Proof/Machine/Errors.lean ====
section
/-! DEFINITION. The core's error kinds, as data (60_exceptions.md R240). -/

namespace Sys2Proof.Machine

/-- The five error kinds of the source and the spec's own `ImageTooLarge` (R240), with the information each records.
These are the spec's errors, returned to the host; the reasons for which `step` has no next state are `Fault`. -/
inductive MachineError where
  /-- Never raised: all 16 opcodes are assigned (R241). Kept, as R241 allows, so that the taxonomy is whole (log entry 13). -/
  | invalidOpcode (opcode : BitVec 4) (pc : Word)
  /-- Raised by a TRAP whose vector names no service; fatal (R242). -/
  | unimplementedTrap (vector : Byte) (pc : Word)
  /-- Raised by a field extraction outside 15..0 or with hi < lo; no instruction makes one (R247). -/
  | decodeFieldOutOfRange (hi lo : Int)
  /-- Raised by an image load whose bytes end before the origin or in mid-word (R243). -/
  | truncatedImage
  /-- Raised by a load that would pass 0xFFFF (R244). -/
  | imageTooLarge
  /-- Returned by `step` and `run` before any load (R245). -/
  | noProgramLoaded
  deriving DecidableEq, Repr

end Sys2Proof.Machine
end

