-- ==== Sys2Proof/Config.lean ====
section
/-! DEFINITION. What one implementation of the core fixes and the spec leaves open (00_scope.md R21). -/

namespace Sys2Proof

/-- The implementation parameters of R21 that outlive construction.
`REG_INIT` and `MEM_INIT` are the two arguments of `Machine.construct`; this one is read by every PUTS, so it
is carried in `Machine.State.params`, which nothing writes. It is never fixed in a meaning: a statement about PUTS is
about both values (92_eei_decisions.md D19: "a claim about PUTS output holds only if it holds for both values"). -/
structure Params where
  /-- `PUTS_START_OFFSET : {0, 1}`: PUTS starts at R0 plus this offset (45_trap.md R208). -/
  putsStartOffset : Fin 2
  deriving DecidableEq, Repr

end Sys2Proof
end

