-- ==== Sys2Proof/Machine/Platform.lean ====
section
/-! DEFINITION. The numbers of this core, each named once (93_implementation_defined.md I18: "keep as named constants"). -/

namespace Sys2Proof.Machine

/-- PC at construction and after `reset()` (10_state.md R54). -/
def bootAddress : Word := 0x3000#16

/-- Number of cells of the address space (20_memory.md R60). -/
def memorySize : Nat := 65536

/-- KBSR, the keyboard status register (10_state.md R43). -/
def kbsrAddr : Word := 0xFE00#16

/-- KBDR, the keyboard data register (10_state.md R44). -/
def kbdrAddr : Word := 0xFE02#16

/-- READY, bit 15 of KBSR (10_state.md R43). -/
def readyMask : Word := 0x8000#16

/-- The word a cell holds that nothing has written: the value the spec recommends for `MEM_INIT`, and R282's value of
KBSR and KBDR. DESIGN CHOICE, unsafe, log entry 2. -/
def memInitWord : Word := 0x0000#16

/-- The value of R0-R7 that the spec recommends for `REG_INIT` (10_state.md R53). DESIGN CHOICE, unsafe, log entry 1. -/
def regInitWord : Word := 0x0000#16

/-- The value of `PUTS_START_OFFSET` in the reset state, the one the spec recommends (R21).
DESIGN CHOICE, unsafe for a claim that rests on it, log entry 3. -/
def paramsInit : Params := { putsStartOffset := 0 }

/-- Trap vector GETC (45_trap.md R201). -/
def getcVector : Byte := 0x20#8

/-- Trap vector OUT (R201). -/
def outVector : Byte := 0x21#8

/-- Trap vector PUTS (R201). -/
def putsVector : Byte := 0x22#8

/-- Trap vector HALT (R201). -/
def haltVector : Byte := 0x25#8

end Sys2Proof.Machine
end

