-- ==== Sys2Proof/Syntax.lean ====
section
/-! DEFINITION. The general registers and the instructions: one constructor of `Instr` per row of spec/opcode_table.json. -/

namespace Sys2Proof

/-- The eight general registers; none is hardwired or banked (10_state.md R31). -/
inductive Reg where
  | r0 | r1 | r2 | r3 | r4 | r5 | r6 | r7
  deriving DecidableEq, Repr

/-- The instructions, in the order of spec/opcode_table.json. Operands are the fields of 30_encoding.md R91;
the bits that the decoder ignores (R94) are no operands. -/
inductive Instr where
  /-- BR, R120. -/
  | br (n z p : Bool) (offset9 : BitVec 9)
  /-- ADD, register form, R130. -/
  | addReg (dr sr1 sr2 : Reg)
  /-- ADD, immediate form, R131. -/
  | addImm (dr sr1 : Reg) (imm5 : BitVec 5)
  /-- LD, R150. -/
  | ld (dr : Reg) (offset9 : BitVec 9)
  /-- ST, R170. -/
  | st (sr : Reg) (offset9 : BitVec 9)
  /-- JSR, R187. -/
  | jsr (offset11 : BitVec 11)
  /-- JSRR, R189. -/
  | jsrr (base : Reg)
  /-- AND, register form, R133. -/
  | andReg (dr sr1 sr2 : Reg)
  /-- AND, immediate form, R134. -/
  | andImm (dr sr1 : Reg) (imm5 : BitVec 5)
  /-- LDR, R154. -/
  | ldr (dr base : Reg) (offset6 : BitVec 6)
  /-- STR, R174. -/
  | str (sr base : Reg) (offset6 : BitVec 6)
  /-- RTI, R231. -/
  | rti
  /-- NOT, R136. -/
  | notReg (dr sr : Reg)
  /-- LDI, R152. -/
  | ldi (dr : Reg) (offset9 : BitVec 9)
  /-- STI, R172. -/
  | sti (sr : Reg) (offset9 : BitVec 9)
  /-- JMP (RET is `JMP R7`), R185. -/
  | jmp (base : Reg)
  /-- RES, R230. -/
  | res
  /-- LEA, R156. -/
  | lea (dr : Reg) (offset9 : BitVec 9)
  /-- TRAP GETC, R203. -/
  | trapGetc
  /-- TRAP OUT, R206. -/
  | trapOut
  /-- TRAP PUTS, R208. -/
  | trapPuts
  /-- TRAP HALT, R212. -/
  | trapHalt
  /-- TRAP with any other vector, R210. -/
  | trapOther (vector : Byte)
  deriving DecidableEq, Repr

end Sys2Proof
end

