-- ==== Sys2Proof/WellFormed.lean ====
section
/-! DEFINITION. Which terms of `Instr` stand for a row of the opcode table. Every field is as wide as its type, so one
check is left: the row "TRAP (any other vector)" excludes the four vectors that name a service (45_trap.md R201, R210). -/

namespace Sys2Proof

/-- The vector names a service of the trap dispatcher (45_trap.md R201). -/
def isServiceVector (v : Byte) : Bool :=
  v == Machine.getcVector || v == Machine.outVector || v == Machine.putsVector || v == Machine.haltVector

/-- The instruction is the reading of some instruction word. -/
def Instr.wellFormed : Instr → Bool
  | .br _ _ _ _ => true
  | .addReg _ _ _ => true
  | .addImm _ _ _ => true
  | .ld _ _ => true
  | .st _ _ => true
  | .jsr _ => true
  | .jsrr _ => true
  | .andReg _ _ _ => true
  | .andImm _ _ _ => true
  | .ldr _ _ _ => true
  | .str _ _ _ => true
  | .rti => true
  | .notReg _ _ => true
  | .ldi _ _ => true
  | .sti _ _ => true
  | .jmp _ => true
  | .res => true
  | .lea _ _ => true
  | .trapGetc => true
  | .trapOut => true
  | .trapPuts => true
  | .trapHalt => true
  | .trapOther v => !isServiceVector v

end Sys2Proof
end

