-- ==== Sys2Proof/Decode.lean ====
section
/-! DEFINITION. The bit-field decoder and, after it, the encoder (30_encoding.md). The opcode numbers, the register field
positions, the mode bit of ADD and AND and the trap vectors are the spec's choices D1 and D2 (log entry 5). -/

namespace Sys2Proof

/-! ### The decoder's primitives (00_scope.md R23, 60_exceptions.md R247) -/

/-- The contract of a field extraction: hi and lo in 0..15 and hi not below lo (R247). -/
def fieldInRange (hi lo : Int) : Bool := 0 ≤ lo && lo ≤ hi && hi ≤ 15

/-- `extractUnsigned(word, hi, lo)`: the field, right-aligned and unsigned, or `DecodeFieldOutOfRange` (R23, R247). -/
def extractUnsigned (word : Word) (hi lo : Int) : Except Machine.MachineError Word :=
  if fieldInRange hi lo then .ok ((word.extractLsb' lo.toNat (hi - lo + 1).toNat).setWidth 16)
  else .error (.decodeFieldOutOfRange hi lo)

/-- `extractSigned(word, hi, lo)`: the field, sign-extended to 16 bits (R23; 90_conflicts.md C2). -/
def extractSigned (word : Word) (hi lo : Int) : Except Machine.MachineError Word :=
  if fieldInRange hi lo then .ok ((word.extractLsb' lo.toNat (hi - lo + 1).toNat).signExtend 16)
  else .error (.decodeFieldOutOfRange hi lo)

/-- The field of `len` bits that starts at bit `lo`, at its own width. The decoder's calls below all lie in 15..0. -/
def bits (w : Word) (lo len : Nat) : BitVec len := w.extractLsb' lo len

/-- The register a 3-bit field names, an unsigned register number (R91). -/
def Reg.ofBits (b : BitVec 3) : Reg :=
  match b.getLsbD 2, b.getLsbD 1, b.getLsbD 0 with
  | false, false, false => .r0
  | false, false, true => .r1
  | false, true, false => .r2
  | false, true, true => .r3
  | true, false, false => .r4
  | true, false, true => .r5
  | true, true, false => .r6
  | true, true, true => .r7

/-- The 3-bit number of a register (R91). -/
def Reg.toBits : Reg → BitVec 3
  | .r0 => 0#3
  | .r1 => 1#3
  | .r2 => 2#3
  | .r3 => 3#3
  | .r4 => 4#3
  | .r5 => 5#3
  | .r6 => 6#3
  | .r7 => 7#3

/-- The register named by the field that starts at bit `lo`. -/
def regAt (w : Word) (lo : Nat) : Reg := Reg.ofBits (bits w lo 3)

/-! ### The decoder -/

/-- The trap dispatcher's choice of a service (45_trap.md R201). -/
def decodeTrap (v : Byte) : Instr :=
  if v = Machine.getcVector then .trapGetc
  else if v = Machine.outVector then .trapOut
  else if v = Machine.putsVector then .trapPuts
  else if v = Machine.haltVector then .trapHalt
  else .trapOther v

/-- The decoder: total on all 65536 words (R97). Bits 15:12 select the handler (R95), the second level is R96, the fields
are those of R91, and every other bit is ignored (R94). -/
def decode (w : Word) : Instr :=
  match w.getLsbD 15, w.getLsbD 14, w.getLsbD 13, w.getLsbD 12 with
  | false, false, false, false => .br (w.getLsbD 11) (w.getLsbD 10) (w.getLsbD 9) (bits w 0 9)
  | false, false, false, true => if w.getLsbD 5 then .addImm (regAt w 9) (regAt w 6) (bits w 0 5) else .addReg (regAt w 9) (regAt w 6) (regAt w 0)
  | false, false, true, false => .ld (regAt w 9) (bits w 0 9)
  | false, false, true, true => .st (regAt w 9) (bits w 0 9)
  | false, true, false, false => if w.getLsbD 11 then .jsr (bits w 0 11) else .jsrr (regAt w 6)
  | false, true, false, true => if w.getLsbD 5 then .andImm (regAt w 9) (regAt w 6) (bits w 0 5) else .andReg (regAt w 9) (regAt w 6) (regAt w 0)
  | false, true, true, false => .ldr (regAt w 9) (regAt w 6) (bits w 0 6)
  | false, true, true, true => .str (regAt w 9) (regAt w 6) (bits w 0 6)
  | true, false, false, false => .rti
  | true, false, false, true => .notReg (regAt w 9) (regAt w 6)
  | true, false, true, false => .ldi (regAt w 9) (bits w 0 9)
  | true, false, true, true => .sti (regAt w 9) (bits w 0 9)
  | true, true, false, false => .jmp (regAt w 6)
  | true, true, false, true => .res
  | true, true, true, false => .lea (regAt w 9) (bits w 0 9)
  | true, true, true, true => decodeTrap (bits w 0 8)

/-- The instruction at the front of a stream of bytes in image order, big-endian (70_reset_and_hazards.md R290), with the
bytes after it; a stream that ends in mid-word is rejected by name. -/
def decodeBytes : List Byte → Except Machine.MachineError (Instr × List Byte)
  | high :: low :: rest => .ok (decode (high ++ low), rest)
  | _ => .error .truncatedImage

/-- The host's view of the decoder: a row of spec/opcode_table.json is one 16-bit word (R90; log entry 15). -/
def decodeTableWord (_nbits w : Nat) : Option Instr :=
  if w < 2 ^ 16 then some (decode (BitVec.ofNat 16 w)) else none

/-! ### The encoder -/

/-- A field put at bit `lo` of a word that is otherwise 0. -/
def place {n : Nat} (lo : Nat) (v : BitVec n) : Word := v.setWidth 16 <<< lo

/-- The opcode field (R95). -/
def placeOp (op : BitVec 4) : Word := place 12 op

/-- A register field. -/
def placeReg (lo : Nat) (r : Reg) : Word := place lo r.toBits

/-- One bit of an instruction word. -/
def placeBit (lo : Nat) (b : Bool) : Word := place lo (BitVec.ofBool b)

/-- The word of an instruction (R91, R95, R96). Ignored bits are 0, but for NOT's bits 5:0, which are the textbook's ones
(R94); DESIGN CHOICE, safe, log entry 12. -/
def encode : Instr → Word
  | .br n z p off => placeOp 0x0#4 ||| placeBit 11 n ||| placeBit 10 z ||| placeBit 9 p ||| place 0 off
  | .addReg dr sr1 sr2 => placeOp 0x1#4 ||| placeReg 9 dr ||| placeReg 6 sr1 ||| placeReg 0 sr2
  | .addImm dr sr1 imm => placeOp 0x1#4 ||| placeReg 9 dr ||| placeReg 6 sr1 ||| placeBit 5 true ||| place 0 imm
  | .ld dr off => placeOp 0x2#4 ||| placeReg 9 dr ||| place 0 off
  | .st sr off => placeOp 0x3#4 ||| placeReg 9 sr ||| place 0 off
  | .jsr off => placeOp 0x4#4 ||| placeBit 11 true ||| place 0 off
  | .jsrr base => placeOp 0x4#4 ||| placeReg 6 base
  | .andReg dr sr1 sr2 => placeOp 0x5#4 ||| placeReg 9 dr ||| placeReg 6 sr1 ||| placeReg 0 sr2
  | .andImm dr sr1 imm => placeOp 0x5#4 ||| placeReg 9 dr ||| placeReg 6 sr1 ||| placeBit 5 true ||| place 0 imm
  | .ldr dr base off => placeOp 0x6#4 ||| placeReg 9 dr ||| placeReg 6 base ||| place 0 off
  | .str sr base off => placeOp 0x7#4 ||| placeReg 9 sr ||| placeReg 6 base ||| place 0 off
  | .rti => placeOp 0x8#4
  | .notReg dr sr => placeOp 0x9#4 ||| placeReg 9 dr ||| placeReg 6 sr ||| place 0 0x3F#6
  | .ldi dr off => placeOp 0xA#4 ||| placeReg 9 dr ||| place 0 off
  | .sti sr off => placeOp 0xB#4 ||| placeReg 9 sr ||| place 0 off
  | .jmp base => placeOp 0xC#4 ||| placeReg 6 base
  | .res => placeOp 0xD#4
  | .lea dr off => placeOp 0xE#4 ||| placeReg 9 dr ||| place 0 off
  | .trapGetc => placeOp 0xF#4 ||| place 0 Machine.getcVector
  | .trapOut => placeOp 0xF#4 ||| place 0 Machine.outVector
  | .trapPuts => placeOp 0xF#4 ||| place 0 Machine.putsVector
  | .trapHalt => placeOp 0xF#4 ||| place 0 Machine.haltVector
  | .trapOther v => placeOp 0xF#4 ||| place 0 v

/-! ### The opcode table, as data -/

/-- A row of spec/opcode_table.json: a word `w` is of the row when `w &&& mask = pattern`; `ignored` marks the bits the
decoder does not read (the dots of R91). -/
structure OpcodeRow where
  mnemonic : String
  mask : Word
  pattern : Word
  ignored : Word
  deriving DecidableEq, Repr

/-- The row of an instruction. -/
def Instr.row : Instr → OpcodeRow
  | .br _ _ _ _ => ⟨"BR", 0xF000#16, 0x0000#16, 0x0000#16⟩
  | .addReg _ _ _ => ⟨"ADD", 0xF020#16, 0x1000#16, 0x0018#16⟩
  | .addImm _ _ _ => ⟨"ADD", 0xF020#16, 0x1020#16, 0x0000#16⟩
  | .ld _ _ => ⟨"LD", 0xF000#16, 0x2000#16, 0x0000#16⟩
  | .st _ _ => ⟨"ST", 0xF000#16, 0x3000#16, 0x0000#16⟩
  | .jsr _ => ⟨"JSR", 0xF800#16, 0x4800#16, 0x0000#16⟩
  | .jsrr _ => ⟨"JSRR", 0xF800#16, 0x4000#16, 0x063F#16⟩
  | .andReg _ _ _ => ⟨"AND", 0xF020#16, 0x5000#16, 0x0018#16⟩
  | .andImm _ _ _ => ⟨"AND", 0xF020#16, 0x5020#16, 0x0000#16⟩
  | .ldr _ _ _ => ⟨"LDR", 0xF000#16, 0x6000#16, 0x0000#16⟩
  | .str _ _ _ => ⟨"STR", 0xF000#16, 0x7000#16, 0x0000#16⟩
  | .rti => ⟨"RTI", 0xF000#16, 0x8000#16, 0x0FFF#16⟩
  | .notReg _ _ => ⟨"NOT", 0xF000#16, 0x9000#16, 0x003F#16⟩
  | .ldi _ _ => ⟨"LDI", 0xF000#16, 0xA000#16, 0x0000#16⟩
  | .sti _ _ => ⟨"STI", 0xF000#16, 0xB000#16, 0x0000#16⟩
  | .jmp _ => ⟨"JMP", 0xF000#16, 0xC000#16, 0x0E3F#16⟩
  | .res => ⟨"RES", 0xF000#16, 0xD000#16, 0x0FFF#16⟩
  | .lea _ _ => ⟨"LEA", 0xF000#16, 0xE000#16, 0x0000#16⟩
  | .trapGetc => ⟨"TRAP_GETC", 0xF0FF#16, 0xF020#16, 0x0F00#16⟩
  | .trapOut => ⟨"TRAP_OUT", 0xF0FF#16, 0xF021#16, 0x0F00#16⟩
  | .trapPuts => ⟨"TRAP_PUTS", 0xF0FF#16, 0xF022#16, 0x0F00#16⟩
  | .trapHalt => ⟨"TRAP_HALT", 0xF0FF#16, 0xF025#16, 0x0F00#16⟩
  | .trapOther _ => ⟨"TRAP__any_other_vector", 0xF000#16, 0xF000#16, 0x0F00#16⟩

/-- The word is of the row. -/
def OpcodeRow.matchesWord (r : OpcodeRow) (w : Word) : Bool := w &&& r.mask == r.pattern

/-- The 23 rows in the table's order; the last matches only words that no earlier TRAP row matches (the table's note). -/
def opcodeTable : List OpcodeRow :=
  [Instr.row (.br false false false 0#9), Instr.row (.addReg .r0 .r0 .r0), Instr.row (.addImm .r0 .r0 0#5),
    Instr.row (.ld .r0 0#9), Instr.row (.st .r0 0#9), Instr.row (.jsr 0#11), Instr.row (.jsrr .r0),
    Instr.row (.andReg .r0 .r0 .r0), Instr.row (.andImm .r0 .r0 0#5), Instr.row (.ldr .r0 .r0 0#6),
    Instr.row (.str .r0 .r0 0#6), Instr.row .rti] ++
  [Instr.row (.notReg .r0 .r0), Instr.row (.ldi .r0 0#9), Instr.row (.sti .r0 0#9), Instr.row (.jmp .r0), Instr.row .res,
    Instr.row (.lea .r0 0#9), Instr.row .trapGetc, Instr.row .trapOut, Instr.row .trapPuts, Instr.row .trapHalt,
    Instr.row (.trapOther 0#8)]

end Sys2Proof
end

