-- ==== Sys2Proof/Machine/State.lean ====
section
/-! DEFINITION. The state of the core: the tuple of 10_state.md R30, every component of it, and the parameter of R21 that
every PUTS reads. Plain data. -/

namespace Sys2Proof.Machine

/-- The register file: 8 x Word16 (R31). -/
structure Regs where
  r0 : Word
  r1 : Word
  r2 : Word
  r3 : Word
  r4 : Word
  r5 : Word
  r6 : Word
  r7 : Word
  deriving DecidableEq, Repr

/-- The condition register COND: three booleans (R38). -/
structure Cond where
  n : Bool
  z : Bool
  p : Bool
  deriving DecidableEq, Repr

/-- A listed memory cell: a word address and its word. The smallest unit that this memory addresses is the 16-bit word
("Inside the core, memory has no bytes", 20_memory.md R62); DESIGN CHOICE, safe, log entry 6. -/
abbrev Cell := Nat × Word

/-- The address space: the cells that differ from `memInitWord`, in rising order of address (canonical form: `Memory.wf`).
KBSR and KBDR are cells of it (10_state.md R43, R44). -/
abbrev Memory := List Cell

/-- The Machine status (R48). -/
inductive Status where
  | idle
  | ready
  | halted
  | stopped
  | failed (e : MachineError)
  deriving DecidableEq, Repr

/-- The state vector of R30, field by field, and `params`, the model's own field (R21, log entry 3). -/
structure State where
  regs : Regs
  pc : Word
  cond : Cond
  mem : Memory
  kbq : List Byte
  cycles : Nat
  status : Status
  loaded : Bool
  out : List Byte
  params : Params
  deriving DecidableEq, Repr

/-- Why a step has no next state. -/
inductive Fault where
  /-- Raised by TRAP PUTS when no word its scan reaches is 0x0000: "The step does not complete, which is a hang"
  (45_trap.md R208), so "a model gives such a step no successor" (60_exceptions.md R246). Safe: the hardware has no
  next state there either. -/
  | putsNeverCompletes
  deriving DecidableEq, Repr

/-- Why an instruction is refused. -/
inductive Refusal where
  /-- For an arm of exec without a meaning. No arm answers it: every instruction has its meaning. Safe. -/
  | notModelled (mnemonic : String)
  deriving DecidableEq, Repr

/-- The machine right after `reset()` with no program loaded (R52, 70_reset_and_hazards.md R280, R282). R0-R7 are log entry
1, what memory reads as is entry 2, `params` is entry 3; the rest are the spec's own values. -/
def State.reset : State where
  regs :=
    { r0 := regInitWord, r1 := regInitWord, r2 := regInitWord, r3 := regInitWord,
      r4 := regInitWord, r5 := regInitWord, r6 := regInitWord, r7 := regInitWord }
  pc := bootAddress
  cond := { n := false, z := false, p := false }
  mem := []
  kbq := []
  cycles := 0
  status := .idle
  loaded := false
  out := []
  params := paramsInit

end Sys2Proof.Machine
end

