-- ==== Sys2Proof/Machine/Flags.lean ====
section
/-! DEFINITION. The condition register: what sets it, what BR makes of it, how the host reads it (10_state.md R38-R42). -/

namespace Sys2Proof.Machine

/-- The flags `setcc(v)` leaves (R39); `v.msb` is v[15]. -/
def condOf (v : Word) : Cond where
  n := v.msb
  z := v == 0#16
  p := !v.msb && v != 0#16

/-- COND after `reset()` and at construction: 000 (R42; 90_conflicts.md C1). -/
def condClear : Cond := { n := false, z := false, p := false }

/-- BR's condition: (n and N) or (z and Z) or (p and P) (40_branch.md R120). -/
def branchTaken (n z p : Bool) (c : Cond) : Bool := (n && c.n) || (z && c.z) || (p && c.p)

/-- COND packed as N:Z:P, N being bit 2 (R38). -/
def Cond.pack (c : Cond) : BitVec 3 := BitVec.ofBool c.n ++ BitVec.ofBool c.z ++ BitVec.ofBool c.p

end Sys2Proof.Machine
end

