-- ==== Sys2Proof/Machine/Operands.lean ====
section
/-! DEFINITION. Every operand form: immediates, effective addresses, characters (30_encoding.md R92, R93). -/

namespace Sys2Proof.Machine

/-- `sext_16(v)` (00_scope.md R22): every immediate but the trap vector (R92). -/
def sext16 {n : Nat} (v : BitVec n) : Word := v.signExtend 16

/-- `zext_16(b)` (R22): a byte put into a word (10_state.md R46, 45_trap.md R203). -/
def zext16 (b : Byte) : Word := b.setWidth 16

/-- The character of a word: bits 7:0 (20_memory.md R62). -/
def lowByte (w : Word) : Byte := w.setWidth 8

/-- The PC-relative effective address `(pc + 1) + sext_16(offset)`, modulo 65536 (R93). -/
def pcRelative {n : Nat} (pc : Word) (offset : BitVec n) : Word := pc + 1#16 + sext16 offset

/-- The base-relative effective address `x[BaseR] + sext_16(offset6)`, modulo 65536 (R93). -/
def baseRelative (base : Word) (offset : BitVec 6) : Word := base + sext16 offset

/-- The address PUTS starts at: R0 plus `PUTS_START_OFFSET` (45_trap.md R208). -/
def putsStart (r0 : Word) (params : Params) : Word := r0 + BitVec.ofNat 16 params.putsStartOffset.val

end Sys2Proof.Machine
end

