-- ==== Sys2Proof/Machine/Ops.lean ====
section
/-! DEFINITION. The named operations over registers, memory, the keyboard, the output sink and the Machine's status.
Every meaning is made of these. -/

namespace Sys2Proof.Machine

/-! ### Registers (10_state.md R31) -/

/-- `x[i]`. -/
def Regs.get (rs : Regs) : Reg → Word
  | .r0 => rs.r0
  | .r1 => rs.r1
  | .r2 => rs.r2
  | .r3 => rs.r3
  | .r4 => rs.r4
  | .r5 => rs.r5
  | .r6 => rs.r6
  | .r7 => rs.r7

/-- `x[i] <- v`. -/
def Regs.set (rs : Regs) (r : Reg) (v : Word) : Regs :=
  match r with
  | .r0 => { rs with r0 := v }
  | .r1 => { rs with r1 := v }
  | .r2 => { rs with r2 := v }
  | .r3 => { rs with r3 := v }
  | .r4 => { rs with r4 := v }
  | .r5 => { rs with r5 := v }
  | .r6 => { rs with r6 := v }
  | .r7 => { rs with r7 := v }

/-- A register file with one value in all eight registers. -/
def Regs.fill (v : Word) : Regs := { r0 := v, r1 := v, r2 := v, r3 := v, r4 := v, r5 := v, r6 := v, r7 := v }

/-- The link register of JSR and JSRR (10_state.md R32; spec decision D3, log entry 5). -/
def linkReg : Reg := .r7

/-! ### The address space as storage (20_memory.md R60) -/

/-- `mem[a]`, with no side effect. A cell that is not listed reads as `memInitWord` (log entry 2). -/
def Memory.read : Memory → Word → Word
  | [], _ => memInitWord
  | c :: rest, a => if c.1 = a.toNat then c.2 else Memory.read rest a

/-- The memory with no entry at an address. -/
def Memory.erase (m : Memory) (a : Word) : Memory := m.filter fun c => c.1 != a.toNat

/-- The memory with a cell put before the first cell of a higher address. -/
def Memory.insertCell : Memory → Cell → Memory
  | [], c => [c]
  | d :: rest, c => if c.1 < d.1 then c :: d :: rest else d :: Memory.insertCell rest c

/-- `mem[a] <- v`, as storage: keeps the canonical form. -/
def Memory.write (m : Memory) (a v : Word) : Memory :=
  if v = memInitWord then m.erase a else (m.erase a).insertCell (a.toNat, v)

/-- The canonical form: addresses strictly rising and in the address space, no entry equal to what an unlisted cell
reads as. -/
abbrev Memory.wf (m : Memory) : Prop :=
  m.Pairwise (fun c d => c.1 < d.1) ∧ ∀ c ∈ m, c.1 < memorySize ∧ c.2 ≠ memInitWord

/-- Consecutive words written from an address on (the host's `load`, 70_reset_and_hazards.md R289). -/
def Memory.writeWords (m : Memory) (a : Word) : List Word → Memory
  | [] => m
  | w :: rest => Memory.writeWords (m.write a w) (a + 1#16) rest

/-! ### KBSR's READY bit (10_state.md R43) -/

/-- READY is 1. -/
def isReady (kbsr : Word) : Bool := kbsr &&& readyMask != 0#16

/-- KBSR with READY set and bits 14:0 unchanged (R46). -/
def setReady (kbsr : Word) : Word := kbsr ||| readyMask

/-- KBSR with READY clear and bits 14:0 unchanged (20_memory.md R66). -/
def clearReady (kbsr : Word) : Word := kbsr &&& ~~~readyMask

/-! ### The accessors (20_memory.md R66, R67) -/

/-- What a read of `a` does to the state: a read of KBDR clears READY, any other read does nothing (R66, R70). -/
def afterRead (a : Word) (s : State) : State :=
  if a = kbdrAddr then { s with mem := s.mem.write kbsrAddr (clearReady (s.mem.read kbsrAddr)) } else s

/-- `MemRead(a, 1)`: the word from before the side effect, and the state after it (R66). -/
def memRead (a : Word) (s : State) : Word × State := (s.mem.read a, afterRead a s)

/-- `MemWrite(a, 1, v)`: a plain store at every address, KBSR and KBDR included (R67). -/
def memWrite (a v : Word) (s : State) : State := { s with mem := s.mem.write a v }

/-! ### Register and flag results (60_exceptions.md R255 step 7) -/

/-- `x[r] <- v`. -/
def setReg (r : Reg) (v : Word) (s : State) : State := { s with regs := s.regs.set r v }

/-- `setcc(v)` (10_state.md R39). -/
def setcc (v : Word) (s : State) : State := { s with cond := condOf v }

/-- A flag-setting instruction's result: DR, then the flags of the value written to it (R40). -/
def setResult (dr : Reg) (v : Word) (s : State) : State := setcc v (setReg dr v s)

/-! ### The keyboard queue, the I/O bridge, the output sink (10_state.md R45, R46, R49) -/

/-- `injectByte` for a run of bytes, oldest first: appended to the queue, which has no bound (R45). -/
def injectBytes (bs : List Byte) (s : State) : State := { s with kbq := s.kbq ++ bs }

/-- `QueuePop()`: the front byte, or none, and the state after it (00_scope.md R24). -/
def queuePop (s : State) : Option Byte × State :=
  match s.kbq with
  | [] => (none, s)
  | b :: rest => (some b, { s with kbq := rest })

/-- The I/O bridge's delivery, by direct writes: at most one byte, and only while READY is clear (R46). -/
def bridge (s : State) : State :=
  if isReady (s.mem.read kbsrAddr) then s
  else
    match s.kbq with
    | [] => s
    | b :: rest =>
      { s with
        kbq := rest
        mem := (s.mem.write kbsrAddr (setReady (s.mem.read kbsrAddr))).write kbdrAddr (zext16 b) }

/-- `Emit(c)` (00_scope.md R24). -/
def emit (c : Byte) (s : State) : State := { s with out := s.out ++ [c] }

/-- The loop of PUTS (45_trap.md R208), at most `fuel` words of it; `none` when no terminator was met among them. -/
def putsLoop : Nat → Word → State → Option State
  | 0, _, _ => none
  | fuel + 1, a, s =>
    if (memRead a s).1 = 0#16 then some (memRead a s).2
    else putsLoop fuel (a + 1#16) (emit (lowByte (memRead a s).1) (memRead a s).2)

/-- How many words PUTS scans before the scan is known to have no end. The first 65536 reads visit every cell, 0xFE02
among them, so READY is clear after them and memory changes no more; if the next 65536 meet no zero word either, no later
one does. (R208 says 65536, but its own pseudocode and vector V-TR13a meet a terminator on the second pass.) DEDUCED, log
entry 7. -/
def putsFuel : Nat := 2 * memorySize

/-! ### Completing an instruction, halting, failing (60_exceptions.md R255, R246) -/

/-- The commit of a step that completes: PC <- npc, then cycles <- cycles + 1 (R255 steps 8 and 9). -/
def commit (npc : Word) (s : State) : State := { s with pc := npc, cycles := s.cycles + 1 }

/-- The commit with the default next PC, PC + 1 modulo 65536 (10_state.md R35, R37). -/
def advance (s : State) : State := commit (s.pc + 1#16) s

/-- `halt` at commit: status <- Halted (R255 step 10, 45_trap.md R212). -/
def halt (s : State) : State := { s with status := .halted }

/-- `raise e`, the ONE way an instruction raises an error: no result of the instruction is committed, PC and cycles stay,
status becomes Failed(e) (R246). No handler is entered and nothing is saved (R250); no instruction returns from it (R252),
only the host's `reset()` leaves Failed (R256). -/
def raiseError (e : MachineError) (s : State) : Host.Outcome State Fault Refusal := .next { s with status := .failed e }

/-- Leaving Failed, Halted or Stopped: the host's `reset()` (70_reset_and_hazards.md R280), which does exactly this. -/
def hostReset (s : State) : State :=
  { s with
    pc := bootAddress
    cond := condClear
    cycles := 0
    status := if s.loaded then .ready else .idle }

/-! ### Fetching (60_exceptions.md R255 steps 1 and 2) -/

/-- The word step 2 fetches, from the state step 1 leaves. -/
def fetchedWord (s : State) : Word := (memRead s.pc s).1

/-- The state the handler runs from: the fetch goes through `MemRead`, so a fetch from KBDR clears READY
(20_memory.md R68). -/
def afterFetch (s : State) : State := (memRead s.pc s).2

/-- The step loop may run an instruction (R255, R256). -/
def canStep (s : State) : Bool := s.loaded && s.status == .ready

/-- A word put where the next step fetches, in a machine ready to step: what a host's `load` of one word at PC does, and, only
where PC is a device cell, an empty queue, since a delivery would change the word before the fetch (log entry 8). -/
def placeWord (w : Word) (s : State) : State :=
  { s with
    mem := s.mem.write s.pc w
    kbq := if s.pc = kbsrAddr ∨ s.pc = kbdrAddr then [] else s.kbq
    loaded := true
    status := .ready }

end Sys2Proof.Machine
end

