-- ==== Sys2Proof/Machine/Branch.lean ====
section
/-! DEFINITION. The conditional branch (40_branch.md). -/

namespace Sys2Proof.Machine

/-- BR (R120): PC-relative when a requested flag is set, otherwise the next instruction. -/
def execBr (n z p : Bool) (offset9 : BitVec 9) (s : State) : Host.Outcome State Fault Refusal :=
  .next (if branchTaken n z p s.cond then commit (pcRelative s.pc offset9) s else advance s)

end Sys2Proof.Machine
end

