-- ==== Sys2Proof/Machine/Jump.lean ====
section
/-! DEFINITION. The unconditional transfers (44_jump.md). -/

namespace Sys2Proof.Machine

/-- JMP, and so RET (R185): no link. -/
def execJmp (base : Reg) (s : State) : Host.Outcome State Fault Refusal := .next (commit (s.regs.get base) s)

/-- The shared shape of a call: the link register gets pc + 1, PC the target read before it (10_state.md R36). -/
def callTo (target : Word) (s : State) : Host.Outcome State Fault Refusal := .next (commit target (setReg linkReg (s.pc + 1#16) s))

/-- JSR (R187). -/
def execJsr (offset11 : BitVec 11) (s : State) : Host.Outcome State Fault Refusal := callTo (pcRelative s.pc offset11) s

/-- JSRR (R189): `JSRR R7` jumps to the old R7. -/
def execJsrr (base : Reg) (s : State) : Host.Outcome State Fault Refusal := callTo (s.regs.get base) s

end Sys2Proof.Machine
end

