-- ==== Sys2Proof/Machine/Load.lean ====
section
/-! DEFINITION. The loads and LEA (42_load.md). Reads go through `memRead`, in order, each seeing the side effects before it (20_memory.md R71). -/

namespace Sys2Proof.Machine

/-- The shared shape: one `MemRead` at the effective address, then DR and the flags, then PC. -/
def loadFrom (dr : Reg) (ea : Word) (s : State) : Host.Outcome State Fault Refusal :=
  .next (advance (setResult dr (memRead ea s).1 (memRead ea s).2))

/-- LD (R150). -/
def execLd (dr : Reg) (offset9 : BitVec 9) (s : State) : Host.Outcome State Fault Refusal := loadFrom dr (pcRelative s.pc offset9) s

/-- LDI (R152): the pointer read, then the data read from the state the first leaves. -/
def execLdi (dr : Reg) (offset9 : BitVec 9) (s : State) : Host.Outcome State Fault Refusal :=
  loadFrom dr (memRead (pcRelative s.pc offset9) s).1 (memRead (pcRelative s.pc offset9) s).2

/-- LDR (R154). -/
def execLdr (dr base : Reg) (offset6 : BitVec 6) (s : State) : Host.Outcome State Fault Refusal :=
  loadFrom dr (baseRelative (s.regs.get base) offset6) s

/-- LEA (R156): the address itself; no memory access; sets the flags. -/
def execLea (dr : Reg) (offset9 : BitVec 9) (s : State) : Host.Outcome State Fault Refusal :=
  .next (advance (setResult dr (pcRelative s.pc offset9) s))

end Sys2Proof.Machine
end

