-- ==== Sys2Proof/Machine/Operate.lean ====
section
/-! DEFINITION. The operate instructions (41_operate.md). Sources are read before the destination is written (10_state.md R36). -/

namespace Sys2Proof.Machine

/-- The shared shape: DR gets the result, the flags come from it, PC goes on. -/
def operate (dr : Reg) (result : Word) (s : State) : Host.Outcome State Fault Refusal := .next (advance (setResult dr result s))

/-- ADD, register form (R130): modulo 65536, overflow not detected. -/
def execAddReg (dr sr1 sr2 : Reg) (s : State) : Host.Outcome State Fault Refusal := operate dr (s.regs.get sr1 + s.regs.get sr2) s

/-- ADD, immediate form (R131). -/
def execAddImm (dr sr1 : Reg) (imm5 : BitVec 5) (s : State) : Host.Outcome State Fault Refusal := operate dr (s.regs.get sr1 + sext16 imm5) s

/-- AND, register form (R133). -/
def execAndReg (dr sr1 sr2 : Reg) (s : State) : Host.Outcome State Fault Refusal := operate dr (s.regs.get sr1 &&& s.regs.get sr2) s

/-- AND, immediate form (R134). -/
def execAndImm (dr sr1 : Reg) (imm5 : BitVec 5) (s : State) : Host.Outcome State Fault Refusal := operate dr (s.regs.get sr1 &&& sext16 imm5) s

/-- NOT (R136). -/
def execNotReg (dr sr : Reg) (s : State) : Host.Outcome State Fault Refusal := operate dr (~~~s.regs.get sr) s

end Sys2Proof.Machine
end

