-- ==== Sys2Proof/Machine/Reserved.lean ====
section
/-! DEFINITION. The two opcodes without an operation (46_reserved.md; 90_conflicts.md C8). -/

namespace Sys2Proof.Machine

/-- RES (R230): a no-op. -/
def execRes (s : State) : Host.Outcome State Fault Refusal := .next (advance s)

/-- RTI (R231): a no-op; it pops nothing and reads no memory. -/
def execRti (s : State) : Host.Outcome State Fault Refusal := .next (advance s)

end Sys2Proof.Machine
end

