-- ==== Sys2Proof/Machine/Store.lean ====
section
/-! DEFINITION. The stores (43_store.md). No store changes a register or a flag. -/

namespace Sys2Proof.Machine

/-- The shared shape: one `MemWrite` of a word at the effective address, then PC. -/
def storeTo (ea v : Word) (s : State) : Host.Outcome State Fault Refusal := .next (advance (memWrite ea v s))

/-- ST (R170). -/
def execSt (sr : Reg) (offset9 : BitVec 9) (s : State) : Host.Outcome State Fault Refusal :=
  storeTo (pcRelative s.pc offset9) (s.regs.get sr) s

/-- STI (R172): the pointer read, then the write in the state it leaves. -/
def execSti (sr : Reg) (offset9 : BitVec 9) (s : State) : Host.Outcome State Fault Refusal :=
  storeTo (memRead (pcRelative s.pc offset9) s).1 (s.regs.get sr) (memRead (pcRelative s.pc offset9) s).2

/-- STR (R174). -/
def execStr (sr base : Reg) (offset6 : BitVec 6) (s : State) : Host.Outcome State Fault Refusal :=
  storeTo (baseRelative (s.regs.get base) offset6) (s.regs.get sr) s

end Sys2Proof.Machine
end

