-- ==== Sys2Proof/Machine/Trap.lean ====
section
/-! DEFINITION. TRAP and the services of the trap dispatcher (45_trap.md). A service runs within the step, writes no link (R250) and no flag. -/

namespace Sys2Proof.Machine

/-- TRAP GETC (R203): the front byte of the queue into R0, or R0 unchanged; never waits. -/
def execTrapGetc (s : State) : Host.Outcome State Fault Refusal :=
  match queuePop s with
  | (some b, s') => .next (advance (setReg .r0 (zext16 b) s'))
  | (none, s') => .next (advance s')

/-- TRAP OUT (R206): the low byte of R0. -/
def execTrapOut (s : State) : Host.Outcome State Fault Refusal := .next (advance (emit (lowByte (s.regs.get .r0)) s))

/-- TRAP PUTS (R208): the words from R0 + PUTS_START_OFFSET up to the first zero word. A scan without an end is a hang, and
the step has no successor (60_exceptions.md R246). -/
def execTrapPuts (s : State) : Host.Outcome State Fault Refusal :=
  match putsLoop putsFuel (putsStart (s.regs.get .r0) s.params) s with
  | some s' => .next (advance s')
  | none => .fault .putsNeverCompletes

/-- TRAP HALT (R212): commits like any instruction; the Machine is Halted. -/
def execTrapHalt (s : State) : Host.Outcome State Fault Refusal := .next (halt (advance s))

/-- TRAP with an unrecognised vector (R210): UnimplementedTrap, fatal, recorded with the TRAP's address. -/
def execTrapOther (vector : Byte) (s : State) : Host.Outcome State Fault Refusal := raiseError (.unimplementedTrap vector s.pc) s

end Sys2Proof.Machine
end

