-- ==== Sys2Proof/Machine/Cycle.lean ====
section
/-! DEFINITION. The step transaction (60_exceptions.md R255, R256). -/

namespace Sys2Proof.Machine

/-- `step()`. In Ready: the bridge, the fetch, the decode, the handler (R255). Otherwise `step()` changes nothing (R245, R256).
`mid` is what the input source injects between the bridge's read of the queue and GETC's, the one point inside a step where
an injection can be seen (20_memory.md R76); where no instruction runs it joins the queue all the same, since `injectByte` never
fails (10_state.md R45). What the call returns is `State.stepReturn` of the state it leaves
(log entry 9). `step` is `cycle` with no injection inside (log entry 10). -/
def cycle (mid : List Byte) (s : State) : Host.Outcome State Fault Refusal :=
  if canStep s then
    exec (decode (fetchedWord (injectBytes mid (bridge s)))) (afterFetch (injectBytes mid (bridge s)))
  else .next (injectBytes mid s)

end Sys2Proof.Machine
end

