-- ==== Sys2Proof/Machine/Step.lean ====
section
/-! DEFINITION. The machine's step, and how the host places an instruction under it. -/

namespace Sys2Proof.Machine

/-- One `step()` with no injection inside it (60_exceptions.md R255, R256). -/
def step (s : State) : Host.Outcome State Fault Refusal := cycle [] s

/-- The state whose next step fetches and runs the 16-bit word `w` (log entry 8). -/
def State.withFetchWord (s : State) (_nbits w : Nat) : State := placeWord (BitVec.ofNat 16 w) s

end Sys2Proof.Machine
end

