-- ==== Sys2Proof/Machine/Transactions.lean ====
section
/-! DEFINITION. The block's interface to its host, transaction by transaction (00_scope.md R25). `reset()` is `hostReset` and
`injectByte` is `injectBytes` of one byte, both in Ops.lean. -/

namespace Sys2Proof.Machine

/-! ### Construction and loading (70_reset_and_hazards.md §1, §2) -/

/-- A newly constructed Machine (R282), from the parameters of R21: `REG_INIT`, `MEM_INIT` as the cells that differ from 0, and
PUTS_START_OFFSET. KBSR and KBDR are 0x0000 whatever `MEM_INIT` says. -/
def construct (regInit : Regs) (memInit : Memory) (params : Params) : State where
  regs := regInit
  pc := bootAddress
  cond := condClear
  mem := (memInit.write kbsrAddr 0#16).write kbdrAddr 0#16
  kbq := []
  cycles := 0
  status := .idle
  loaded := false
  out := []
  params := params

/-- `load(originAddress, words)` (R289): direct writes, or ImageTooLarge and no change (60_exceptions.md R244). -/
def load (origin : Word) (words : List Word) (s : State) : Except MachineError State :=
  if origin.toNat + words.length > memorySize then .error .imageTooLarge
  else
    .ok { s with
      mem := s.mem.writeWords origin words
      loaded := true
      status := if s.status = .idle then .ready else s.status }

/-- The big-endian words of an image's bytes; none when the bytes end in mid-word (R290). -/
def imageWords : List Byte → Option (List Word)
  | [] => some []
  | [_] => none
  | high :: low :: rest => (imageWords rest).map fun ws => (high ++ low) :: ws

/-- The load of a program image (R290): a big-endian origin, then big-endian words; TruncatedImage commits nothing (R291). -/
def loadImage (image : List Byte) (s : State) : Except MachineError State :=
  match imageWords image with
  | some (origin :: words) => load origin words s
  | _ => .error .truncatedImage

/-! ### Inspection (10_state.md R50): no side effect -/

/-- `readRegister(i)`. -/
def readRegister (s : State) (r : Reg) : Word := s.regs.get r

/-- `readMemory(addr)`: not through `MemRead`, so READY stays (20_memory.md R69). -/
def readMemory (s : State) (a : Word) : Word := s.mem.read a

/-- `readProgramCounter()`. -/
def readProgramCounter (s : State) : Word := s.pc

/-- `readFlags()`: (N, Z, P); `Cond.pack` is its packed view (R38). -/
def readFlags (s : State) : Bool × Bool × Bool := (s.cond.n, s.cond.z, s.cond.p)

/-! ### What `step` and `run` return (60_exceptions.md R255 to R258) -/

/-- `halted : Bool`, or an error. -/
inductive StepReturn where
  | halted (b : Bool)
  | error (e : MachineError)
  deriving DecidableEq, Repr

/-- What `step()` returns, read off the state it leaves: false in Ready (R255 step 10), true in Halted and Stopped, the error in
Failed (R255, R256), NoProgramLoaded in Idle (R245). -/
def State.stepReturn (s : State) : StepReturn :=
  match s.status with
  | .idle => .error .noProgramLoaded
  | .ready => .halted false
  | .halted => .halted true
  | .stopped => .halted true
  | .failed e => .error e

/-- Honouring a stop request: Stopped, unless the Machine has already ended (R258, R249) or has no program
(R245; log entry 11). -/
def honourStop (s : State) : State :=
  if s.status = .ready then { s with status := .stopped } else s

/-- What the outside does around one iteration of `run`: the bytes injected before it, whether a stop request is then pending,
the bytes injected inside the step (20_memory.md R76, R258). Where the iteration runs no step, the latter join the queue all the
same (10_state.md R45). -/
structure RunInput where
  before : List Byte
  stop : Bool
  mid : List Byte
  deriving DecidableEq, Repr

/-- How a `run()` stands after a number of iterations. -/
inductive RunResult where
  /-- It has returned. -/
  | returned (r : StepReturn) (s : State)
  /-- It goes on: no iteration so far has ended it. -/
  | running (s : State)
  /-- It hangs in a step that never completes (R246). -/
  | hung
  deriving DecidableEq, Repr

/-- `run()` over the iterations that `inputs` describes (R257): no program, return the error; a stop request pending, stop and
return; otherwise step, and return if the step reports halted or an error. R257 gives no value for the return on a stop request;
DESIGN CHOICE, log entry 17: what `step()` returns of the state left, so halted = true in Stopped and Halted, the error in Failed.
That a missing program goes before a stop request is log entry 11. -/
def run : List RunInput → State → RunResult
  | [], s => .running s
  | i :: rest, s =>
    let s := injectBytes i.before s
    if s.loaded = false then .returned (.error .noProgramLoaded) (injectBytes i.mid s)
    else if i.stop then .returned (honourStop s).stepReturn (honourStop (injectBytes i.mid s))
    else
      match cycle i.mid s with
      | .next s' => if s'.stepReturn = .halted false then run rest s' else .returned s'.stepReturn s'
      | .fault _ => .hung
      | .refused _ => .hung

end Sys2Proof.Machine
end

