-- ==== Sys2Proof/Safety.lean ====
section
/-! DEFINITION. The terms in which claims are stated: what an instruction leaves as it was, what flags mean, which words PUTS
reads, and the invariant of the machine. -/

namespace Sys2Proof.Machine

/-! ### Flags and memory, said without the model's own operations -/

/-- The flags say of a value, read as a two's-complement integer, whether it is negative, zero or positive (10_state.md R39). -/
structure FlagsOf (v : Word) (c : Cond) : Prop where
  negative : c.n = true ↔ v.toInt < 0
  zero : c.z = true ↔ v.toInt = 0
  positive : c.p = true ↔ 0 < v.toInt

/-- Exactly one flag is true (R42). -/
abbrev Cond.oneHot (c : Cond) : Prop :=
  c = ⟨true, false, false⟩ ∨ c = ⟨false, true, false⟩ ∨ c = ⟨false, false, true⟩

/-- What memory reads as after a `MemRead` of `a`, given what it read as before (20_memory.md R66): a read of 0xFE02 clears bit
15 of 0xFE00 and leaves its bits 14:0. -/
def readView (a : Word) (before : Word → Word) : Word → Word := fun b =>
  if a = 0xFE02#16 ∧ b = 0xFE00#16 then before b &&& 0x7FFF#16 else before b

/-! ### Frames -/

/-- What every instruction but the traps and the errors leaves of the core: one more completed step, and keyboard queue, output
sink, status, loaded mark and parameters as before. -/
structure Completes (s t : State) : Prop where
  cycles : t.cycles = s.cycles + 1
  kbq : t.kbq = s.kbq
  out : t.out = s.out
  status : t.status = s.status
  loaded : t.loaded = s.loaded
  params : t.params = s.params

/-- The frame of a flag-setting instruction with destination `dr`: flags of the value in `dr`, every other register as before,
the next instruction next. Memory is said apart. -/
structure WritesResult (dr : Reg) (s t : State) : Prop where
  flags : FlagsOf (t.regs.get dr) t.cond
  others : ∀ r, r ≠ dr → t.regs.get r = s.regs.get r
  pc : t.pc = s.pc + 1#16
  completes : Completes s t

/-- The frame of an instruction that writes no register and no flag. Memory and PC are said apart. -/
structure WritesNoRegister (s t : State) : Prop where
  regs : ∀ r, t.regs.get r = s.regs.get r
  cond : t.cond = s.cond
  completes : Completes s t

/-- Every cell reads as before. -/
def SameMemory (s t : State) : Prop := ∀ a, t.mem.read a = s.mem.read a

/-! ### PUTS as the spec writes it -/

/-- The loop of 45_trap.md R208, with no bound: from address `a` and state `s` it ends in state `t`. -/
inductive PutsEnds : Word → State → State → Prop
  /-- `if w == 0x0000: exit loop`. -/
  | terminator (a : Word) (s : State) : (memRead a s).1 = 0#16 → PutsEnds a s (memRead a s).2
  /-- `Emit(w[7:0]); a <- a + 1`. -/
  | character (a : Word) (s t : State) : (memRead a s).1 ≠ 0#16 →
      PutsEnds (a + 1#16) (emit (lowByte (memRead a s).1) (memRead a s).2) t → PutsEnds a s t

/-! ### What the next step of a ready machine runs -/

/-- The state the handler of the next step runs from, when nothing is injected inside the step. -/
def handlerState (s : State) : State := afterFetch (bridge s)

/-- The instruction the next step of a ready machine runs. -/
def nextInstr (s : State) : Instr := decode (fetchedWord (bridge s))

/-- The destination register of the flag-setting instructions, which are ADD, AND, NOT, LD, LDI, LDR and LEA (R40). -/
def resultReg : Instr → Option Reg
  | .addReg dr _ _ => some dr
  | .addImm dr _ _ => some dr
  | .andReg dr _ _ => some dr
  | .andImm dr _ _ => some dr
  | .notReg dr _ => some dr
  | .ld dr _ => some dr
  | .ldi dr _ => some dr
  | .ldr dr _ _ => some dr
  | .lea dr _ => some dr
  | .br _ _ _ _ => none
  | .st _ _ => none
  | .sti _ _ => none
  | .str _ _ _ => none
  | .jmp _ => none
  | .jsr _ => none
  | .jsrr _ => none
  | .rti => none
  | .res => none
  | .trapGetc => none
  | .trapOut => none
  | .trapPuts => none
  | .trapHalt => none
  | .trapOther _ => none

/-- The cell a store writes, in the state its handler runs from; none for an instruction that stores nothing (20_memory.md
R61). -/
def storeTarget (s : State) : Instr → Option Word
  | .st _ off => some (pcRelative s.pc off)
  | .sti _ off => some (s.mem.read (pcRelative s.pc off))
  | .str _ base off => some (baseRelative (s.regs.get base) off)
  | .br _ _ _ _ => none
  | .addReg _ _ _ => none
  | .addImm _ _ _ => none
  | .andReg _ _ _ => none
  | .andImm _ _ _ => none
  | .notReg _ _ => none
  | .ld _ _ => none
  | .ldi _ _ => none
  | .ldr _ _ _ => none
  | .lea _ _ => none
  | .jmp _ => none
  | .jsr _ => none
  | .jsrr _ => none
  | .rti => none
  | .res => none
  | .trapGetc => none
  | .trapOut => none
  | .trapPuts => none
  | .trapHalt => none
  | .trapOther _ => none

/-! ### The invariant -/

/-- What holds of every state a run can reach. -/
structure MachineInv (s : State) : Prop where
  /-- Memory is in canonical form. -/
  memory : s.mem.wf
  /-- Idle exactly while no program is loaded (10_state.md R48). -/
  idle : s.status = .idle ↔ s.loaded = false
  /-- COND is 000 or has exactly one flag (R42). -/
  flags : s.cond = ⟨false, false, false⟩ ∨ s.cond.oneHot
  /-- A failed Machine failed with UnimplementedTrap for a vector that names no service, and PC is the TRAP's address
  (60_exceptions.md R241, R242, R246, R251). -/
  failure : ∀ e, s.status = .failed e → ∃ v, e = .unimplementedTrap v s.pc ∧ isServiceVector v = false

end Sys2Proof.Machine
end

