-- ==== Sys2Proof/Certificates/Slice0/Obligations.lean ====
section
/-! DEFINITION. The statements about this machine, for the provers. Each docstring names the rules of spec/ it formalises. An
instruction's statement has two parts: which words are that instruction, with every field (30_encoding.md R91, R95, R96), and what
exec answers, a next state in every state but for an endless PUTS. Register fields are compared through `Reg.toBits`, the register's number. The opcode
numbers, the register field positions and the trap vectors in those words are R91, R95 and R201, which the spec took from general
knowledge (its decisions D1 and D2; log entry 5). A docstring that names a decision D<n> of spec/92_eei_decisions.md names a clause
that the spec marks as its own choice. -/

open Sys2Proof Sys2Proof.Machine

/-! ### Operate -/

/-- R130: ADD, register form; bits 4:3 are ignored. -/
def Obligations.AddRegisterForm : Prop :=
  (∀ w : Word, w.extractLsb' 12 4 = 0x1#4 → w.getLsbD 5 = false →
    ∃ dr sr1 sr2, decode w = .addReg dr sr1 sr2 ∧ dr.toBits = w.extractLsb' 9 3 ∧ sr1.toBits = w.extractLsb' 6 3 ∧
      sr2.toBits = w.extractLsb' 0 3) ∧
  ∀ dr sr1 sr2 s, ∃ t, exec (.addReg dr sr1 sr2) s = .next t ∧
    (t.regs.get dr).toNat = ((s.regs.get sr1).toNat + (s.regs.get sr2).toNat) % 65536 ∧
    WritesResult dr s t ∧ SameMemory s t

/-- R131: ADD, immediate form; the immediate is a signed number. -/
def Obligations.AddImmediateForm : Prop :=
  (∀ w : Word, w.extractLsb' 12 4 = 0x1#4 → w.getLsbD 5 = true →
    ∃ dr sr1, decode w = .addImm dr sr1 (w.extractLsb' 0 5) ∧ dr.toBits = w.extractLsb' 9 3 ∧
      sr1.toBits = w.extractLsb' 6 3) ∧
  ∀ dr sr1 (imm5 : BitVec 5) s, ∃ t, exec (.addImm dr sr1 imm5) s = .next t ∧
    (t.regs.get dr).toInt = ((s.regs.get sr1).toInt + imm5.toInt).bmod 65536 ∧
    WritesResult dr s t ∧ SameMemory s t

/-- R133: AND, register form, bit by bit; bits 4:3 are ignored. -/
def Obligations.AndRegisterForm : Prop :=
  (∀ w : Word, w.extractLsb' 12 4 = 0x5#4 → w.getLsbD 5 = false →
    ∃ dr sr1 sr2, decode w = .andReg dr sr1 sr2 ∧ dr.toBits = w.extractLsb' 9 3 ∧ sr1.toBits = w.extractLsb' 6 3 ∧
      sr2.toBits = w.extractLsb' 0 3) ∧
  ∀ dr sr1 sr2 s, ∃ t, exec (.andReg dr sr1 sr2) s = .next t ∧
    (∀ k < 16, (t.regs.get dr).getLsbD k = ((s.regs.get sr1).getLsbD k && (s.regs.get sr2).getLsbD k)) ∧
    WritesResult dr s t ∧ SameMemory s t

/-- R134: AND, immediate form: bit 4 of the immediate stands for every bit above it. -/
def Obligations.AndImmediateForm : Prop :=
  (∀ w : Word, w.extractLsb' 12 4 = 0x5#4 → w.getLsbD 5 = true →
    ∃ dr sr1, decode w = .andImm dr sr1 (w.extractLsb' 0 5) ∧ dr.toBits = w.extractLsb' 9 3 ∧
      sr1.toBits = w.extractLsb' 6 3) ∧
  ∀ dr sr1 (imm5 : BitVec 5) s, ∃ t, exec (.andImm dr sr1 imm5) s = .next t ∧
    (∀ k < 16, (t.regs.get dr).getLsbD k = ((s.regs.get sr1).getLsbD k && imm5.getLsbD (min k 4))) ∧
    WritesResult dr s t ∧ SameMemory s t

/-- R136: NOT, bit by bit; bits 5:0 of the word are ignored. -/
def Obligations.NotComplements : Prop :=
  (∀ w : Word, w.extractLsb' 12 4 = 0x9#4 →
    ∃ dr sr, decode w = .notReg dr sr ∧ dr.toBits = w.extractLsb' 9 3 ∧ sr.toBits = w.extractLsb' 6 3) ∧
  ∀ dr sr s, ∃ t, exec (.notReg dr sr) s = .next t ∧
    (∀ k < 16, (t.regs.get dr).getLsbD k = !(s.regs.get sr).getLsbD k) ∧
    WritesResult dr s t ∧ SameMemory s t

/-! ### Branch and jumps -/

/-- R120: BR is taken when a requested flag is set; taken or not it changes no register, no flag and no memory. -/
def Obligations.BranchOnRequestedFlags : Prop :=
  (∀ w : Word, w.extractLsb' 12 4 = 0x0#4 →
    decode w = .br (w.getLsbD 11) (w.getLsbD 10) (w.getLsbD 9) (w.extractLsb' 0 9)) ∧
  ∀ n z p (offset9 : BitVec 9) s, ∃ t, exec (.br n z p offset9) s = .next t ∧
    ((n = true ∧ s.cond.n = true) ∨ (z = true ∧ s.cond.z = true) ∨ (p = true ∧ s.cond.p = true) →
      t.pc = s.pc + 1#16 + offset9.signExtend 16) ∧
    (¬((n = true ∧ s.cond.n = true) ∨ (z = true ∧ s.cond.z = true) ∨ (p = true ∧ s.cond.p = true)) →
      t.pc = s.pc + 1#16) ∧
    WritesNoRegister s t ∧ SameMemory s t

/-- R185: JMP goes to the base register and saves no link; `RET` is the word 0xC1C0. -/
def Obligations.JumpToBaseRegister : Prop :=
  (∀ w : Word, w.extractLsb' 12 4 = 0xC#4 → ∃ base, decode w = .jmp base ∧ base.toBits = w.extractLsb' 6 3) ∧
  decode 0xC1C0#16 = .jmp .r7 ∧
  ∀ base s, ∃ t, exec (.jmp base) s = .next t ∧ t.pc = s.regs.get base ∧ WritesNoRegister s t ∧ SameMemory s t

/-- R187: JSR links in R7 (the register is the spec's decision D3) and goes to (pc + 1) + offset. -/
def Obligations.JumpToSubroutineRelative : Prop :=
  (∀ w : Word, w.extractLsb' 12 4 = 0x4#4 → w.getLsbD 11 = true → decode w = .jsr (w.extractLsb' 0 11)) ∧
  ∀ (offset11 : BitVec 11) s, ∃ t, exec (.jsr offset11) s = .next t ∧
    t.regs.get .r7 = s.pc + 1#16 ∧ t.pc = s.pc + 1#16 + offset11.signExtend 16 ∧
    (∀ r, r ≠ .r7 → t.regs.get r = s.regs.get r) ∧ t.cond = s.cond ∧ Completes s t ∧ SameMemory s t

/-- R189: JSRR links in R7 (decision D3) and goes to the base register as it was before the link. -/
def Obligations.JumpToSubroutineRegister : Prop :=
  (∀ w : Word, w.extractLsb' 12 4 = 0x4#4 → w.getLsbD 11 = false →
    ∃ base, decode w = .jsrr base ∧ base.toBits = w.extractLsb' 6 3) ∧
  ∀ base s, ∃ t, exec (.jsrr base) s = .next t ∧
    t.regs.get .r7 = s.pc + 1#16 ∧ t.pc = s.regs.get base ∧
    (∀ r, r ≠ .r7 → t.regs.get r = s.regs.get r) ∧ t.cond = s.cond ∧ Completes s t ∧ SameMemory s t

/-! ### Loads -/

/-- R150: LD, with the side effect its read has. -/
def Obligations.LoadPcRelative : Prop :=
  (∀ w : Word, w.extractLsb' 12 4 = 0x2#4 →
    ∃ dr, decode w = .ld dr (w.extractLsb' 0 9) ∧ dr.toBits = w.extractLsb' 9 3) ∧
  ∀ dr (offset9 : BitVec 9) s, ∃ t, exec (.ld dr offset9) s = .next t ∧
    t.regs.get dr = s.mem.read (s.pc + 1#16 + offset9.signExtend 16) ∧ WritesResult dr s t ∧
    ∀ a, t.mem.read a = readView (s.pc + 1#16 + offset9.signExtend 16) s.mem.read a

/-- R152: LDI, the data read from the memory the pointer read leaves. -/
def Obligations.LoadIndirect : Prop :=
  (∀ w : Word, w.extractLsb' 12 4 = 0xA#4 →
    ∃ dr, decode w = .ldi dr (w.extractLsb' 0 9) ∧ dr.toBits = w.extractLsb' 9 3) ∧
  ∀ dr (offset9 : BitVec 9) s pa ptr, pa = s.pc + 1#16 + offset9.signExtend 16 → ptr = s.mem.read pa →
    ∃ t, exec (.ldi dr offset9) s = .next t ∧
      t.regs.get dr = readView pa s.mem.read ptr ∧ WritesResult dr s t ∧
      ∀ a, t.mem.read a = readView ptr (readView pa s.mem.read) a

/-- R154: LDR, the base read before the destination is written. -/
def Obligations.LoadBaseOffset : Prop :=
  (∀ w : Word, w.extractLsb' 12 4 = 0x6#4 →
    ∃ dr base, decode w = .ldr dr base (w.extractLsb' 0 6) ∧ dr.toBits = w.extractLsb' 9 3 ∧
      base.toBits = w.extractLsb' 6 3) ∧
  ∀ dr base (offset6 : BitVec 6) s, ∃ t, exec (.ldr dr base offset6) s = .next t ∧
    t.regs.get dr = s.mem.read (s.regs.get base + offset6.signExtend 16) ∧ WritesResult dr s t ∧
    ∀ a, t.mem.read a = readView (s.regs.get base + offset6.signExtend 16) s.mem.read a

/-- R156: LEA, an address and no memory access; it sets the flags. -/
def Obligations.LoadEffectiveAddress : Prop :=
  (∀ w : Word, w.extractLsb' 12 4 = 0xE#4 →
    ∃ dr, decode w = .lea dr (w.extractLsb' 0 9) ∧ dr.toBits = w.extractLsb' 9 3) ∧
  ∀ dr (offset9 : BitVec 9) s, ∃ t, exec (.lea dr offset9) s = .next t ∧
    t.regs.get dr = s.pc + 1#16 + offset9.signExtend 16 ∧ WritesResult dr s t ∧ SameMemory s t

/-! ### Stores -/

/-- R170: ST, with its frame: only the cell stored to changes, and it holds the whole word, KBSR and KBDR included. -/
def Obligations.StorePcRelative : Prop :=
  (∀ w : Word, w.extractLsb' 12 4 = 0x3#4 →
    ∃ sr, decode w = .st sr (w.extractLsb' 0 9) ∧ sr.toBits = w.extractLsb' 9 3) ∧
  ∀ sr (offset9 : BitVec 9) s ea, ea = s.pc + 1#16 + offset9.signExtend 16 →
    ∃ t, exec (.st sr offset9) s = .next t ∧ t.pc = s.pc + 1#16 ∧ WritesNoRegister s t ∧
      t.mem.read ea = s.regs.get sr ∧ ∀ a, a ≠ ea → t.mem.read a = s.mem.read a

/-- R172: STI, the pointer read through the accessor, with its side effect, before the write. -/
def Obligations.StoreIndirect : Prop :=
  (∀ w : Word, w.extractLsb' 12 4 = 0xB#4 →
    ∃ sr, decode w = .sti sr (w.extractLsb' 0 9) ∧ sr.toBits = w.extractLsb' 9 3) ∧
  ∀ sr (offset9 : BitVec 9) s pa ptr, pa = s.pc + 1#16 + offset9.signExtend 16 → ptr = s.mem.read pa →
    ∃ t, exec (.sti sr offset9) s = .next t ∧ t.pc = s.pc + 1#16 ∧ WritesNoRegister s t ∧
      t.mem.read ptr = s.regs.get sr ∧ ∀ a, a ≠ ptr → t.mem.read a = readView pa s.mem.read a

/-- R174: STR, with its frame. -/
def Obligations.StoreBaseOffset : Prop :=
  (∀ w : Word, w.extractLsb' 12 4 = 0x7#4 →
    ∃ sr base, decode w = .str sr base (w.extractLsb' 0 6) ∧ sr.toBits = w.extractLsb' 9 3 ∧
      base.toBits = w.extractLsb' 6 3) ∧
  ∀ sr base (offset6 : BitVec 6) s ea, ea = s.regs.get base + offset6.signExtend 16 →
    ∃ t, exec (.str sr base offset6) s = .next t ∧ t.pc = s.pc + 1#16 ∧ WritesNoRegister s t ∧
      t.mem.read ea = s.regs.get sr ∧ ∀ a, a ≠ ea → t.mem.read a = s.mem.read a

/-! ### Traps -/

/-- R203: GETC takes the front byte of the queue into R0, or leaves R0; it touches neither KBSR nor KBDR (decision D18) and no flag
(decision D17). -/
def Obligations.TrapGetcTakesOneByte : Prop :=
  (∀ w : Word, w.extractLsb' 12 4 = 0xF#4 → w.extractLsb' 0 8 = 0x20#8 → decode w = .trapGetc) ∧
  ∀ s, ∃ t, exec .trapGetc s = .next t ∧
    (s.kbq = [] → t.regs.get .r0 = s.regs.get .r0 ∧ t.kbq = []) ∧
    (∀ b rest, s.kbq = b :: rest → (t.regs.get .r0).toNat = b.toNat ∧ t.kbq = rest) ∧
    (∀ r, r ≠ .r0 → t.regs.get r = s.regs.get r) ∧ t.cond = s.cond ∧ t.pc = s.pc + 1#16 ∧ t.cycles = s.cycles + 1 ∧
    t.out = s.out ∧ t.status = s.status ∧ t.loaded = s.loaded ∧ t.params = s.params ∧ SameMemory s t

/-- R206: OUT appends the low byte of R0. -/
def Obligations.TrapOutEmitsLowByte : Prop :=
  (∀ w : Word, w.extractLsb' 12 4 = 0xF#4 → w.extractLsb' 0 8 = 0x21#8 → decode w = .trapOut) ∧
  ∀ s, ∃ t c, exec .trapOut s = .next t ∧ t.out = s.out ++ [c] ∧ c.toNat = (s.regs.get .r0).toNat % 256 ∧
    (∀ r, t.regs.get r = s.regs.get r) ∧ t.cond = s.cond ∧ t.pc = s.pc + 1#16 ∧ t.cycles = s.cycles + 1 ∧
    t.kbq = s.kbq ∧ t.status = s.status ∧ t.loaded = s.loaded ∧ t.params = s.params ∧ SameMemory s t

/-- The pseudocode of R208, whose details are decision D20, and the hang of R246 (log entry 7: a fault): PUTS completes exactly when
its loop, which the spec writes without a bound, ends; then the step commits what the loop left, and only KBSR and the output sink
may differ. For either start offset. -/
def Obligations.TrapPutsCompletesIffItsLoopEnds : Prop :=
  (∀ w : Word, w.extractLsb' 12 4 = 0xF#4 → w.extractLsb' 0 8 = 0x22#8 → decode w = .trapPuts) ∧
  ∀ s start, start = s.regs.get .r0 + BitVec.ofNat 16 s.params.putsStartOffset.val →
    (∀ t, PutsEnds start s t →
      exec .trapPuts s = .next { t with pc := s.pc + 1#16, cycles := s.cycles + 1 } ∧
      t.regs = s.regs ∧ t.cond = s.cond ∧ t.kbq = s.kbq ∧ t.status = s.status ∧ t.loaded = s.loaded ∧
      t.params = s.params ∧ ∀ a, a ≠ 0xFE00#16 → t.mem.read a = s.mem.read a) ∧
    ((¬∃ t, PutsEnds start s t) → exec .trapPuts s = .fault .putsNeverCompletes)

/-- R208 on a string that does not reach 0xFE02: one character, the low byte, for each word before the first zero word, and
nothing else changes (decision D20). For either start offset (decision D19, log entry 3). -/
def Obligations.TrapPutsPrintsString : Prop :=
  ∀ s (n : Nat) (cell : Nat → Word),
    (∀ k, cell k = s.regs.get .r0 + BitVec.ofNat 16 s.params.putsStartOffset.val + BitVec.ofNat 16 k) →
    (∀ k < n, s.mem.read (cell k) ≠ 0#16) → s.mem.read (cell n) = 0#16 → (∀ k ≤ n, cell k ≠ 0xFE02#16) →
    exec .trapPuts s = .next { s with
      out := s.out ++ (List.range n).map (fun k => (s.mem.read (cell k)).extractLsb' 0 8)
      pc := s.pc + 1#16
      cycles := s.cycles + 1 }

/-- R212: HALT commits PC and cycles, changes nothing else but the status (decision D21), and step then returns
halted = true. -/
def Obligations.TrapHaltHalts : Prop :=
  (∀ w : Word, w.extractLsb' 12 4 = 0xF#4 → w.extractLsb' 0 8 = 0x25#8 → decode w = .trapHalt) ∧
  ∀ s, ∃ t, exec .trapHalt s = .next t ∧ t.stepReturn = .halted true ∧
    t = { s with pc := s.pc + 1#16, cycles := s.cycles + 1, status := .halted }

/-- R210: any other vector raises UnimplementedTrap with the vector and the TRAP's address, and commits nothing else. -/
def Obligations.TrapOtherVectorFails : Prop :=
  (∀ w : Word, ∀ v : Byte, w.extractLsb' 12 4 = 0xF#4 → w.extractLsb' 0 8 = v →
    v ≠ 0x20#8 → v ≠ 0x21#8 → v ≠ 0x22#8 → v ≠ 0x25#8 → decode w = .trapOther v) ∧
  ∀ v s, ∃ t, exec (.trapOther v) s = .next t ∧ t.stepReturn = .error (.unimplementedTrap v s.pc) ∧
    t = { s with status := .failed (.unimplementedTrap v s.pc) }

/-! ### Reserved opcodes -/

/-- R230 and R231: every RES word and every RTI word is a no-op that only advances PC and cycles (decision D25). -/
def Obligations.ReservedOpcodesAreNoOps : Prop :=
  (∀ w : Word, w.extractLsb' 12 4 = 0xD#4 → decode w = .res) ∧
  (∀ w : Word, w.extractLsb' 12 4 = 0x8#4 → decode w = .rti) ∧
  ∀ s, exec .res s = .next { s with pc := s.pc + 1#16, cycles := s.cycles + 1 } ∧
    exec .rti s = .next { s with pc := s.pc + 1#16, cycles := s.cycles + 1 }

/-! ### Encoding -/

/-- Decode and encode agree, for every instruction and every operand an encoding admits. -/
def Obligations.DecodeOfEncodeIsIdentity : Prop :=
  ∀ i : Instr, i.wellFormed = true → decode (encode i) = i

/-- R97: every word decodes to exactly one row, the first row of spec/opcode_table.json that it matches; no word is ill-formed. -/
def Obligations.EveryWordDecodesToItsTableRow : Prop :=
  ∀ w : Word, (decode w).wellFormed = true ∧ opcodeTable.find? (fun r => r.matchesWord w) = some (decode w).row

/-- R94 (decision D4): two words decode alike exactly when they differ in no bit but ignored ones. -/
def Obligations.WordsDifferingInIgnoredBitsDecodeAlike : Prop :=
  ∀ w w' : Word, decode w' = decode w ↔ (w ^^^ w') &&& ~~~(decode w).row.ignored = 0#16

/-- Words written out from R91 and R95, or the spec's own examples, and the instructions they stand for. -/
def Obligations.SampleWordsDecode : Prop :=
  decode 0b0000101000000010#16 = .br true false true 2#9 ∧ decode 0x1401#16 = .addReg .r2 .r0 .r1 ∧
  decode 0x1261#16 = .addImm .r1 .r1 1#5 ∧ decode 0x997F#16 = .notReg .r4 .r5 ∧ decode 0xA009#16 = .ldi .r0 9#9 ∧
  decode 0x64FF#16 = .ldr .r2 .r3 0b111111#6 ∧ decode 0xB204#16 = .sti .r1 4#9 ∧ decode 0x7285#16 = .str .r1 .r2 5#6 ∧
  decode 0x4810#16 = .jsr 16#11 ∧ decode 0x41C0#16 = .jsrr .r7 ∧ decode 0xC0C0#16 = .jmp .r3 ∧
  decode 0xF023#16 = .trapOther 0x23#8 ∧ decode 0xFF25#16 = .trapHalt ∧ decode 0xDFFF#16 = .res ∧ decode 0x8FFF#16 = .rti

/-- R23 and R247: the decoder's primitives give the field, right-aligned, its top bit copied upward when signed; outside the
contract they raise DecodeFieldOutOfRange; every field of R91 is inside it. (Which reading of the signed one: 90_conflicts.md C2.)
-/
def Obligations.FieldExtractionContract : Prop :=
  (∀ (w : Word) (hi lo : Nat), lo ≤ hi → hi ≤ 15 →
    ∃ u v, extractUnsigned w hi lo = .ok u ∧ extractSigned w hi lo = .ok v ∧
      ∀ k < 16, u.getLsbD k = (decide (k ≤ hi - lo) && w.getLsbD (lo + k)) ∧
        v.getLsbD k = if k ≤ hi - lo then w.getLsbD (lo + k) else w.getLsbD hi) ∧
  (∀ (w : Word) (hi lo : Int), ¬(0 ≤ lo ∧ lo ≤ hi ∧ hi ≤ 15) →
    extractUnsigned w hi lo = .error (.decodeFieldOutOfRange hi lo) ∧
      extractSigned w hi lo = .error (.decodeFieldOutOfRange hi lo)) ∧
  ∀ f ∈ [((15 : Int), (12 : Int)), (11, 11), (10, 10), (9, 9), (8, 0), (11, 9), (8, 6), (5, 5), (2, 0), (4, 0), (5, 0), (10, 0),
    (7, 0)], fieldInRange f.1 f.2 = true

/-- Vector V-L1 (90_conflicts.md C3): a field at bit 0, of any width, keeps its signed value. -/
def Obligations.SignedFieldsKeepTheirValue : Prop :=
  ∀ (w : Word) (n : Nat), 1 ≤ n → n ≤ 16 →
    ∃ v, extractSigned w ((n : Int) - 1) 0 = .ok v ∧ v.toInt = (w.extractLsb' 0 n).toInt

/-- R37, R92, R93: effective addresses add a signed offset and wrap modulo 65536. -/
def Obligations.EffectiveAddressesWrap : Prop :=
  (∀ (pc : Word) (offset9 : BitVec 9),
    ((pcRelative pc offset9).toNat : Int) = ((pc.toNat : Int) + 1 + offset9.toInt) % 65536) ∧
  (∀ (pc : Word) (offset11 : BitVec 11),
    ((pcRelative pc offset11).toNat : Int) = ((pc.toNat : Int) + 1 + offset11.toInt) % 65536) ∧
  ∀ (base : Word) (offset6 : BitVec 6),
    ((baseRelative base offset6).toNat : Int) = ((base.toNat : Int) + offset6.toInt) % 65536

/-! ### Construction, reset, loading -/

/-- R280: reset() sets PC, the flags, cycles and the status, and nothing else (decisions D6, D26, D30). -/
def Obligations.ResetTransaction : Prop :=
  ∀ s t, t = hostReset s →
    t.pc = 0x3000#16 ∧ t.cond.n = false ∧ t.cond.z = false ∧ t.cond.p = false ∧ t.cycles = 0 ∧
    (s.loaded = true → t.status = .ready) ∧ (s.loaded = false → t.status = .idle) ∧
    (∀ r, t.regs.get r = s.regs.get r) ∧ (∀ a, t.mem.read a = s.mem.read a) ∧ t.kbq = s.kbq ∧ t.out = s.out ∧
    t.loaded = s.loaded ∧ t.params = s.params

/-- R282 (decisions D7 to D10, D26, D27, D29, D37), for every REG_INIT and MEM_INIT; and the state after reset is one such Machine,
reset (the values of REG_INIT, MEM_INIT and PUTS_START_OFFSET in it are the model's choice, log entries 1 to 3, and are not stated
here). -/
def Obligations.ConstructedMachine : Prop :=
  (∀ regInit memInit params s, s = construct regInit memInit params →
    (∀ r, s.regs.get r = regInit.get r) ∧ s.pc = 0x3000#16 ∧ s.cond = ⟨false, false, false⟩ ∧
    (∀ a, a ≠ 0xFE00#16 → a ≠ 0xFE02#16 → s.mem.read a = memInit.read a) ∧
    s.mem.read 0xFE00#16 = 0#16 ∧ s.mem.read 0xFE02#16 = 0#16 ∧
    s.kbq = [] ∧ s.cycles = 0 ∧ s.out = [] ∧ s.loaded = false ∧ s.status = .idle ∧ s.params = params) ∧
  ∃ regInit memInit params, State.reset = hostReset (construct regInit memInit params)

/-- R289 and R244 (decisions D28, D29): a load that fits writes its words in order and marks the program loaded; one that does not
changes nothing. -/
def Obligations.LoadWritesItsWords : Prop :=
  ∀ (origin : Word) (words : List Word) (s : State),
    (origin.toNat + words.length > 65536 → load origin words s = .error .imageTooLarge) ∧
    (origin.toNat + words.length ≤ 65536 → ∃ t, load origin words s = .ok t ∧
      (∀ k, ∀ h : k < words.length, t.mem.read (origin + BitVec.ofNat 16 k) = words[k]) ∧
      (∀ a : Word, a.toNat < origin.toNat ∨ origin.toNat + words.length ≤ a.toNat → t.mem.read a = s.mem.read a) ∧
      t.loaded = true ∧ (s.status = .idle → t.status = .ready) ∧ (s.status ≠ .idle → t.status = s.status) ∧
      t.regs = s.regs ∧ t.pc = s.pc ∧ t.cond = s.cond ∧ t.kbq = s.kbq ∧ t.cycles = s.cycles ∧ t.out = s.out ∧
      t.params = s.params)

/-- R290, R243, R291: an image is a big-endian origin and big-endian words; one that ends in mid-word or before its origin is
refused, and nothing changes. -/
def Obligations.ImageIsBigEndian : Prop :=
  (∀ (origin : Word) (words : List Word) (s : State),
    loadImage ((origin :: words).flatMap fun w => [w.extractLsb' 8 8, w.extractLsb' 0 8]) s = load origin words s) ∧
  ∀ (image : List Byte) (s : State), image.length < 2 ∨ image.length % 2 = 1 →
    loadImage image s = .error .truncatedImage

/-! ### Memory and the keyboard -/

/-- Two memories in canonical form that read alike are the same list. -/
def Obligations.CanonicalMemoriesAreEqualWhenTheyReadAlike : Prop :=
  ∀ m m' : Memory, m.wf → m'.wf → (∀ a, m.read a = m'.read a) → m = m'

/-- R66 (decisions D12, D13) and R70: MemRead gives the word from before its side effect; only a read of 0xFE02 has one, it clears
bit 15 of 0xFE00; and a second read in a row gives the same word and changes no cell again. -/
def Obligations.MemReadSideEffect : Prop :=
  ∀ a s v t, memRead a s = (v, t) →
    v = s.mem.read a ∧ (a ≠ 0xFE02#16 → t = s) ∧
    (∀ b, t.mem.read b = readView a s.mem.read b) ∧
    t.regs = s.regs ∧ t.pc = s.pc ∧ t.cond = s.cond ∧ t.kbq = s.kbq ∧ t.cycles = s.cycles ∧ t.status = s.status ∧
    t.loaded = s.loaded ∧ t.out = s.out ∧ t.params = s.params ∧
    (memRead a t).1 = v ∧ ∀ b, (memRead a t).2.mem.read b = t.mem.read b

/-- R46 (decision D13): the bridge delivers the front byte when READY is clear and the queue is not empty, and otherwise does
nothing; it runs at the start of every step, before the fetch. -/
def Obligations.BridgeDeliversOneByte : Prop :=
  (∀ s b rest, (s.mem.read 0xFE00#16).getLsbD 15 = false → s.kbq = b :: rest →
    ∃ t, bridge s = t ∧ t.kbq = rest ∧
      (t.mem.read 0xFE00#16).getLsbD 15 = true ∧
      (∀ k < 15, (t.mem.read 0xFE00#16).getLsbD k = (s.mem.read 0xFE00#16).getLsbD k) ∧
      (t.mem.read 0xFE02#16).toNat = b.toNat ∧
      (∀ a, a ≠ 0xFE00#16 → a ≠ 0xFE02#16 → t.mem.read a = s.mem.read a) ∧
      t.regs = s.regs ∧ t.pc = s.pc ∧ t.cond = s.cond ∧ t.cycles = s.cycles ∧ t.status = s.status ∧
      t.loaded = s.loaded ∧ t.out = s.out ∧ t.params = s.params) ∧
  (∀ s, (s.mem.read 0xFE00#16).getLsbD 15 = true ∨ s.kbq = [] → bridge s = s) ∧
  ∀ s, s.loaded = true → s.status = .ready →
    step s = exec (decode ((bridge s).mem.read s.pc)) (memRead s.pc (bridge s)).2

/-- R297, which the spec derives from R46 and R66, step by step: in a step that begins with READY set, 0xFE02 changes only by a store
aimed at it, for the bridge delivers nothing. (Across steps a byte can be lost: a program's store to KBSR can clear READY unread, R67
and decision D11, and a host load can write KBDR, R289.) -/
def Obligations.UnreadByteIsKept : Prop :=
  ∀ s t, (s.mem.read 0xFE00#16).getLsbD 15 = true → step s = .next t →
    t.mem.read 0xFE02#16 ≠ s.mem.read 0xFE02#16 → storeTarget (handlerState s) (nextInstr s) = some 0xFE02#16

/-- R45 (decision D27) with 90_conflicts.md C10 (decision D39): injection appends; a step takes bytes off the front only, at most
two, and two only when the bridge delivers and GETC runs; no byte injected inside a step is lost, whatever the status (R76). -/
def Obligations.QueueIsFirstInFirstOut : Prop :=
  (∀ s b, (injectBytes [b] s).kbq = s.kbq ++ [b]) ∧
  (∀ s t, step s = .next t → ∃ n, n ≤ 2 ∧ t.kbq = s.kbq.drop n ∧
    (n = 2 → (s.mem.read 0xFE00#16).getLsbD 15 = false ∧ nextInstr s = .trapGetc)) ∧
  ∀ mid s t, cycle mid s = .next t → ∃ n, n ≤ 2 ∧ t.kbq = (s.kbq ++ mid).drop n

/-- R76 (decision D27): bytes injected inside a step are in the queue when the handler runs; they are seen by that step's GETC only, and
any other instruction, and a step that runs none (R256), ends as if they had been injected after it. -/
def Obligations.InjectionInsideAStepIsSeenByGetcOnly : Prop :=
  (∀ mid s, s.loaded = true → s.status = .ready → cycle mid s = exec (nextInstr s) (injectBytes mid (handlerState s))) ∧
  (∀ mid s, nextInstr s ≠ .trapGetc →
    (∀ t, step s = .next t → cycle mid s = .next (injectBytes mid t)) ∧
    (∀ f, step s = .fault f → cycle mid s = .fault f)) ∧
  ∀ mid s, s.loaded = false ∨ s.status ≠ .ready → cycle mid s = .next (injectBytes mid s)

/-! ### The step -/

/-- R255 and R68 (decision D14): in a ready machine step runs, from the state the bridge and the fetch leave, the instruction that
the word at PC decodes to; the bridge leaves PC, and the fetch has the side effect of any read. -/
def Obligations.StepRunsTheDecodedInstruction : Prop :=
  ∀ s, s.loaded = true → s.status = .ready →
    (∀ i : Instr, i.wellFormed = true → (bridge s).mem.read s.pc = encode i → step s = exec i (handlerState s)) ∧
    (∀ w, (bridge s).mem.read s.pc = w → step s = exec (decode w) (handlerState s)) ∧
    (handlerState s).pc = s.pc ∧ (handlerState s).regs = s.regs ∧ (handlerState s).cond = s.cond ∧
    (handlerState s).kbq = (bridge s).kbq ∧ (handlerState s).out = s.out ∧ (handlerState s).cycles = s.cycles ∧
    ∀ a, (handlerState s).mem.read a = readView s.pc (bridge s).mem.read a

/-- R292 as the model reads it (log entry 8): a word placed under the fetch is the word the very next step decodes and runs, in
every state and at every PC. -/
def Obligations.PlacedWordIsTheNextInstruction : Prop :=
  ∀ (s : State) (w : Nat), w < 65536 →
    decodeTableWord 16 w = some (decode (BitVec.ofNat 16 w)) ∧
    step (s.withFetchWord 16 w) = exec (decode (BitVec.ofNat 16 w)) (handlerState (s.withFetchWord 16 w)) ∧
    (handlerState (s.withFetchWord 16 w)).pc = s.pc ∧ (handlerState (s.withFetchWord 16 w)).regs = s.regs

/-- R246 (decision D24) and R242: a step that fails keeps the bridge's delivery and the fetch's side effect, and nothing of the
TRAP; a PUTS whose loop has no end has no successor. -/
def Obligations.FatalStepCommitsNothing : Prop :=
  ∀ s, s.loaded = true → s.status = .ready →
    (∀ v, nextInstr s = .trapOther v → ∃ t, step s = .next t ∧
      t.status = .failed (.unimplementedTrap v s.pc) ∧ t.stepReturn = .error (.unimplementedTrap v s.pc) ∧
      t.pc = s.pc ∧ t.cycles = s.cycles ∧ t.regs = s.regs ∧ t.cond = s.cond ∧ t.out = s.out ∧ t.loaded = s.loaded ∧
      t.kbq = (bridge s).kbq ∧ (∀ a, t.mem.read a = readView s.pc (bridge s).mem.read a)) ∧
    (nextInstr s = .trapPuts →
      (¬∃ t, PutsEnds (s.regs.get .r0 + BitVec.ofNat 16 s.params.putsStartOffset.val) (handlerState s) t) →
      step s = .fault .putsNeverCompletes)

/-- R256 (decisions D22, D23): a Machine that is not ready does nothing when stepped and reports why, and no transaction but reset()
takes it out of Halted, Stopped or Failed. -/
def Obligations.EndedMachineOnlyLeavesByReset : Prop :=
  (∀ s, s.loaded = false → step s = .next s) ∧
  (∀ s, s.status = .idle → step s = .next s ∧ s.stepReturn = .error .noProgramLoaded) ∧
  (∀ s, s.status = .halted ∨ s.status = .stopped → step s = .next s ∧ s.stepReturn = .halted true) ∧
  (∀ s e, s.status = .failed e → step s = .next s ∧ s.stepReturn = .error e) ∧
  (∀ s, s.status = .halted ∨ s.status = .stopped ∨ (∃ e, s.status = .failed e) →
    (∀ origin words t, load origin words s = .ok t → t.status = s.status) ∧
    (∀ bs, (injectBytes bs s).status = s.status) ∧ (honourStop s).status = s.status ∧
    (∀ mid t, cycle mid s = .next t → t.status = s.status) ∧
    (s.loaded = true → (hostReset s).status = .ready))

/-- R245: before any load, step and run return NoProgramLoaded, and nothing changes but for bytes the input source injects meanwhile;
the bridge does not run. That run does so even with a stop request pending is the model's choice (log entry 11).
Before any load the status is Idle (R48; the invariant below). -/
def Obligations.NoProgramLoadedBeforeALoad : Prop :=
  ∀ s, s.loaded = false → s.status = .idle →
    step s = .next s ∧ s.stepReturn = .error .noProgramLoaded ∧
    ∀ i rest, run (i :: rest) s = .returned (.error .noProgramLoaded) (injectBytes (i.before ++ i.mid) s)

/-- No step is refused, and the only step without a successor is a PUTS whose loop has no end (R241, R246). -/
def Obligations.OnlyEndlessPutsHasNoSuccessor : Prop :=
  ∀ s, (∃ t, step s = .next t) ∨
    (step s = .fault .putsNeverCompletes ∧ s.loaded = true ∧ s.status = .ready ∧ nextInstr s = .trapPuts ∧
      ¬∃ t, PutsEnds (s.regs.get .r0 + BitVec.ofNat 16 s.params.putsStartOffset.val) (handlerState s) t)

/-- R212, R242, R249 (decision D31): from Ready only HALT leads to Halted and only an unrecognised vector to Failed; a step never
leads to Idle or Stopped. -/
def Obligations.OnlyTrapsEndAMachine : Prop :=
  ∀ s t, s.loaded = true → s.status = .ready → step s = .next t →
    (t.status = .ready ∧ nextInstr s ≠ .trapHalt ∧ ∀ v, nextInstr s ≠ .trapOther v) ∨
    (t.status = .halted ∧ nextInstr s = .trapHalt) ∨
    (∃ v, t.status = .failed (.unimplementedTrap v s.pc) ∧ nextInstr s = .trapOther v)

/-- R35: the next PC is PC + 1 modulo 65536 unless a taken BR, JMP, JSR or JSRR overrides it; the one instruction that raises a
fatal error keeps PC. -/
def Obligations.NextProgramCounterDefault : Prop :=
  ∀ i s t, exec i s = .next t →
    (∀ v, i = .trapOther v → t.pc = s.pc) ∧
    (t.pc.toNat = (s.pc.toNat + 1) % 65536 ∨
      (∃ n z p off, i = .br n z p off ∧
        ((n = true ∧ s.cond.n = true) ∨ (z = true ∧ s.cond.z = true) ∨ (p = true ∧ s.cond.p = true))) ∨
      (∃ base, i = .jmp base) ∨ (∃ off, i = .jsr off) ∨ (∃ base, i = .jsrr base) ∨ ∃ v, i = .trapOther v)

/-- R32 (decisions D3, D16): which instruction can change which register; no TRAP writes R7. -/
def Obligations.RegisterWriters : Prop :=
  ∀ s t r, step s = .next t → t.regs.get r ≠ s.regs.get r →
    resultReg (nextInstr s) = some r ∨
    (((∃ off, nextInstr s = .jsr off) ∨ ∃ base, nextInstr s = .jsrr base) ∧ r = .r7) ∨
    (nextInstr s = .trapGetc ∧ r = .r0 ∧ (bridge s).kbq ≠ [])

/-- R40 (decision D17): ADD, AND, NOT, LD, LDI, LDR and LEA set the flags from the value they write; every other instruction leaves
them. -/
def Obligations.FlagSetters : Prop :=
  ∀ i s t, exec i s = .next t →
    (∀ dr, resultReg i = some dr → FlagsOf (t.regs.get dr) t.cond) ∧ (resultReg i = none → t.cond = s.cond)

/-- R41: only BR reads COND: any other instruction does the same whatever the flags were. R40: it leaves them if it does not set them,
which for TRAP is decision D17 (log entry 14). The host reads them through readFlags(). -/
def Obligations.OnlyBranchReadsFlags : Prop :=
  (∀ i s t c, (∀ n z p off, i ≠ .br n z p off) → exec i s = .next t →
    exec i { s with cond := c } = .next { t with cond := if resultReg i = none then c else t.cond }) ∧
  ∀ s, readFlags s = (s.cond.n, s.cond.z, s.cond.p)

/-- R42 (decision D6, log entry 4): all flags are false at construction and after reset(); exactly one is true after a flag-setting
instruction and from then on, and not before; while none is true no BR is taken. -/
def Obligations.FlagsAreOneHotOnceSet : Prop :=
  (∀ s, (hostReset s).cond = ⟨false, false, false⟩) ∧
  (∀ regInit memInit params, (construct regInit memInit params).cond = ⟨false, false, false⟩) ∧
  (∀ i s t dr, exec i s = .next t → resultReg i = some dr → t.cond.oneHot) ∧
  (∀ s t, step s = .next t → s.cond.oneHot → t.cond.oneHot) ∧
  (∀ s t, step s = .next t → s.cond = ⟨false, false, false⟩ → resultReg (nextInstr s) = none →
    t.cond = ⟨false, false, false⟩) ∧
  ∀ s n z p off, s.cond = ⟨false, false, false⟩ → ∃ t, exec (.br n z p off) s = .next t ∧ t.pc = s.pc + 1#16

/-- R47 (decision D26): a step that completes, HALT's too, adds 1 to cycles; one that fails adds 0; it is 0 at construction and
after reset(); no instruction reads it. -/
def Obligations.CyclesCountCompletedSteps : Prop :=
  (∀ s t, s.loaded = true → s.status = .ready → step s = .next t →
    ((t.status = .ready ∨ t.status = .halted) ∧ t.cycles = s.cycles + 1) ∨
    (∃ e, t.status = .failed e ∧ t.cycles = s.cycles)) ∧
  (∀ s, (hostReset s).cycles = 0) ∧ (∀ regInit memInit params, (construct regInit memInit params).cycles = 0) ∧
  ∀ i s t n, exec i s = .next t →
    exec i { s with cycles := n } = .next { t with cycles := n + (t.cycles - s.cycles) }

/-- R49 (decision D37): the output sink is only ever appended to, by OUT and PUTS; the core never reads it; it is empty at
construction and reset() leaves it. -/
def Obligations.OutputIsOnlyAppendedTo : Prop :=
  (∀ s t, step s = .next t → ∃ cs, t.out = s.out ++ cs ∧
    (cs ≠ [] → nextInstr s = .trapOut ∨ nextInstr s = .trapPuts)) ∧
  (∀ regInit memInit params, (construct regInit memInit params).out = []) ∧ (∀ s, (hostReset s).out = s.out) ∧
  ∀ i s t cs o, exec i s = .next t → t.out = s.out ++ cs →
    exec i { s with out := o } = .next { t with out := o ++ cs }

/-- R61 with R67 (decision D11) and R72: apart from the two device cells, a step changes no cell but the one a store is aimed at. -/
def Obligations.MemoryWriters : Prop :=
  ∀ s t a, step s = .next t → t.mem.read a ≠ s.mem.read a →
    a = 0xFE00#16 ∨ a = 0xFE02#16 ∨ storeTarget (handlerState s) (nextInstr s) = some a

/-! ### run -/

/-- R257, R258 (decision D31): a stop request pending before a step is honoured before it, changes nothing but the status, and ends
run; without one run steps, and goes on only if the step reports halted = false. That run RETURNS halted = true for an honoured stop
is the model's choice (log entry 17): R257 says only "set status to Stopped and return". -/
def Obligations.RunHonoursStopsBetweenSteps : Prop :=
  ∀ s i rest, s.loaded = true → s.status = .ready →
    (i.stop = true →
      run (i :: rest) s = .returned (.halted true) { injectBytes (i.before ++ i.mid) s with status := .stopped }) ∧
    (i.stop = false → ∀ t, cycle i.mid (injectBytes i.before s) = .next t →
      (t.status = .ready → run (i :: rest) s = run rest t) ∧
      (t.status ≠ .ready → run (i :: rest) s = .returned t.stepReturn t))

/-- R257: when run returns, the Machine is Halted, Stopped, Failed or has no program, and what it returns is what step returns of that
state (R255, R256, R245). Where run returns because of a stop request the spec gives no return value: that it is this one is the
model's choice (log entries 11 and 17). -/
def Obligations.RunReturnsOnlyWhenEnded : Prop :=
  ∀ inputs s r t, MachineInv s → run inputs s = .returned r t → t.status ≠ .ready ∧ r = t.stepReturn ∧ r ≠ .halted false

/-! ### The invariant -/

/-- The state after reset meets the invariant. -/
def Obligations.ResetStateMeetsTheInvariant : Prop :=
  MachineInv State.reset

/-- Every step keeps the invariant: memory stays canonical, Idle means not loaded, COND is 000 or one-hot, and a failed Machine
stands at the TRAP that failed (R42, R48, R241, R246, R251). -/
def Obligations.StepKeepsTheInvariant : Prop :=
  (∀ s t, MachineInv s → step s = .next t → MachineInv t) ∧ ∀ mid s t, MachineInv s → cycle mid s = .next t → MachineInv t

/-- Construction, load, reset, injection and a stop request keep the invariant too. -/
def Obligations.HostTransactionsKeepTheInvariant : Prop :=
  (∀ regInit memInit params, memInit.wf → MachineInv (construct regInit memInit params)) ∧
  (∀ s, MachineInv s → MachineInv (hostReset s) ∧ (∀ bs, MachineInv (injectBytes bs s)) ∧ MachineInv (honourStop s)) ∧
  (∀ s t origin words, MachineInv s → load origin words s = .ok t → MachineInv t) ∧
  ∀ s t image, MachineInv s → loadImage image s = .ok t → MachineInv t
end

