-- ==== Sys2Proof/Laws/Decode.lean ====
section
/-! SUPPORT. What each bit of a field and of an encoding is, and that register numbers name registers one to one. -/

namespace Sys2Proof

/-- A bit of a field taken out of a word. -/
theorem getLsbD_bits (w : Word) (lo len k : Nat) :
    (bits w lo len).getLsbD k = (decide (k < len) && w.getLsbD (lo + k)) := by
  simp [bits]

/-- A bit of a field put into a word. -/
theorem getLsbD_place {n : Nat} (lo : Nat) (v : BitVec n) (k : Nat) :
    (place lo v).getLsbD k = (decide (k < 16) && !decide (k < lo) && v.getLsbD (k - lo)) := by
  by_cases h : k < 16
  · simp [place, h]
  · rw [BitVec.getLsbD_of_ge _ _ (by omega)]
    simp [h]

@[simp] theorem Reg.ofBits_toBits (r : Reg) : Reg.ofBits r.toBits = r := by
  cases r <;> rfl

@[simp] theorem Reg.toBits_ofBits (b : BitVec 3) : (Reg.ofBits b).toBits = b := by
  revert b; decide

/-- The in-range primitive is the field the decoder reads, right-aligned (00_scope.md R23). -/
theorem extractUnsigned_eq_bits (w : Word) (hi lo : Nat) (h : lo ≤ hi) (hhi : hi ≤ 15) :
    extractUnsigned w hi lo = .ok ((bits w lo (hi - lo + 1)).setWidth 16) := by
  have hr : fieldInRange hi lo = true := by simp [fieldInRange]; omega
  have hl : ((hi : Int) - lo + 1).toNat = hi - lo + 1 := by omega
  simp only [extractUnsigned, hr, if_true, bits, Int.toNat_natCast]
  rw [hl]

end Sys2Proof
end

