-- ==== Sys2Proof/Laws/Memory.lean ====
section
/-! SUPPORT. The laws of registers and memory: read after write, and that every memory operation keeps the canonical form. The
read laws need no canonical form, so they hold in states that no run reaches too. -/

namespace Sys2Proof.Machine

/-! ### Registers -/

@[simp] theorem Regs.get_set_same (rs : Regs) (r : Reg) (v : Word) : (rs.set r v).get r = v := by
  cases r <;> rfl

theorem Regs.get_set_other (rs : Regs) {r q : Reg} (v : Word) (h : q ≠ r) : (rs.set r v).get q = rs.get q := by
  cases r <;> cases q <;> first | rfl | exact absurd rfl h

theorem Regs.get_set (rs : Regs) (r q : Reg) (v : Word) : (rs.set r v).get q = if q = r then v else rs.get q := by
  split
  · next h => subst h; exact Regs.get_set_same ..
  · next h => exact Regs.get_set_other rs v h

@[simp] theorem Regs.get_fill (r : Reg) (v : Word) : (Regs.fill v).get r = v := by
  cases r <;> rfl

/-! ### Read after write -/

theorem Memory.read_erase_same (m : Memory) (a : Word) : (m.erase a).read a = memInitWord := by
  induction m with
  | nil => rfl
  | cons c rest ih =>
    by_cases h : c.1 = a.toNat
    · simpa [Memory.erase, h] using ih
    · simpa [Memory.erase, Memory.read, h] using ih

theorem Memory.read_erase_other (m : Memory) {a b : Word} (h : b ≠ a) : (m.erase a).read b = m.read b := by
  have hn : b.toNat ≠ a.toNat := fun e => h (BitVec.eq_of_toNat_eq e)
  induction m with
  | nil => rfl
  | cons c rest ih =>
    by_cases hc : c.1 = a.toNat
    · have : c.1 ≠ b.toNat := fun e => hn (e ▸ hc)
      simpa [Memory.erase, Memory.read, hc, this, hn.symm] using ih
    · have ih' : Memory.read (List.filter (fun d => d.1 != a.toNat) rest) b = Memory.read rest b := ih
      simp [Memory.erase, Memory.read, hc, ih']

theorem Memory.read_insertCell (m : Memory) (c : Cell) (b : Word) (h : ∀ d ∈ m, d.1 ≠ c.1) :
    (m.insertCell c).read b = if c.1 = b.toNat then c.2 else m.read b := by
  induction m with
  | nil => rfl
  | cons d rest ih =>
    have hd : d.1 ≠ c.1 := h d (by simp)
    unfold Memory.insertCell
    split
    · rfl
    · rw [Memory.read, ih fun e he => h e (by simp [he])]
      by_cases hb : d.1 = b.toNat
      · have : c.1 ≠ b.toNat := fun e => hd (hb.trans e.symm)
        simp [Memory.read, hb, this]
      · simp [Memory.read, hb]

theorem Memory.erase_keys (m : Memory) (a : Word) : ∀ d ∈ m.erase a, d.1 ≠ a.toNat := by
  intro d hd
  simpa using (List.mem_filter.mp hd).2

/-- Everything a write does to what memory reads as. -/
theorem Memory.read_write (m : Memory) (a v b : Word) : (m.write a v).read b = if b = a then v else m.read b := by
  unfold Memory.write
  by_cases hb : b = a
  · subst hb
    split
    · next h => simp [h, Memory.read_erase_same]
    · rw [Memory.read_insertCell _ _ _ (by exact Memory.erase_keys m b)]; simp
  · have hn : a.toNat ≠ b.toNat := fun e => hb (BitVec.eq_of_toNat_eq e.symm)
    rw [if_neg hb]
    split
    · exact Memory.read_erase_other m hb
    · rw [Memory.read_insertCell _ _ _ (by exact Memory.erase_keys m a), Memory.read_erase_other m hb]
      exact if_neg hn

@[simp] theorem Memory.read_write_same (m : Memory) (a v : Word) : (m.write a v).read a = v := by
  simp [Memory.read_write]

theorem Memory.read_write_other (m : Memory) {a b : Word} (v : Word) (h : b ≠ a) : (m.write a v).read b = m.read b := by
  simp [Memory.read_write, h]

@[simp] theorem Memory.read_nil (a : Word) : Memory.read [] a = memInitWord := rfl

/-! ### The canonical form is kept -/

theorem Memory.wf_nil : Memory.wf [] := by decide

theorem Memory.wf_erase {m : Memory} (a : Word) (h : m.wf) : (m.erase a).wf :=
  ⟨h.1.filter _, fun c hc => h.2 c (List.mem_filter.mp hc).1⟩

theorem Memory.mem_insertCell {m : Memory} {c d : Cell} : d ∈ m.insertCell c ↔ d = c ∨ d ∈ m := by
  induction m with
  | nil => simp [Memory.insertCell]
  | cons e rest ih =>
    unfold Memory.insertCell
    split
    · simp
    · simp [ih, or_left_comm]

theorem Memory.wf_insertCell {m : Memory} {c : Cell} (h : m.wf) (hc : c.1 < memorySize ∧ c.2 ≠ memInitWord)
    (hkeys : ∀ d ∈ m, d.1 ≠ c.1) : (m.insertCell c).wf := by
  refine ⟨?_, fun d hd => ?_⟩
  · induction m with
    | nil => simp [Memory.insertCell]
    | cons e rest ih =>
      have hp := List.pairwise_cons.mp h.1
      have hne : e.1 ≠ c.1 := hkeys e (by simp)
      unfold Memory.insertCell
      split
      · next hlt =>
        refine List.pairwise_cons.mpr ⟨fun d hd => ?_, h.1⟩
        rcases List.mem_cons.mp hd with rfl | hd
        · exact hlt
        · exact Nat.lt_trans hlt (hp.1 d hd)
      · next hlt =>
        refine List.pairwise_cons.mpr ⟨fun d hd => ?_, ?_⟩
        · rcases Memory.mem_insertCell.mp hd with rfl | hd
          · omega
          · exact hp.1 d hd
        · exact ih ⟨hp.2, fun d hd => h.2 d (by simp [hd])⟩ fun d hd => hkeys d (by simp [hd])
  · rcases Memory.mem_insertCell.mp hd with rfl | hd
    · exact hc
    · exact h.2 d hd

/-- A write keeps the canonical form. -/
theorem Memory.wf_write {m : Memory} (a v : Word) (h : m.wf) : (m.write a v).wf := by
  unfold Memory.write
  split
  · exact Memory.wf_erase a h
  · next hv => exact Memory.wf_insertCell (Memory.wf_erase a h) ⟨a.isLt, hv⟩ (Memory.erase_keys m a)

/-- A host's load keeps the canonical form. -/
theorem Memory.wf_writeWords {m : Memory} (a : Word) (ws : List Word) (h : m.wf) : (m.writeWords a ws).wf := by
  induction ws generalizing m a with
  | nil => exact h
  | cons w rest ih => exact ih _ (Memory.wf_write a w h)

end Sys2Proof.Machine
end

