-- ==== Sys2Proof/Laws/State.lean ====
section
/-! SUPPORT. One lemma per field of State per update, so that no proof unfolds a record update. -/

namespace Sys2Proof.Machine

variable (s : State)

@[simp] theorem setReg_regs (r : Reg) (v : Word) : (setReg r v s).regs = s.regs.set r v := rfl
@[simp] theorem setReg_pc (r : Reg) (v : Word) : (setReg r v s).pc = s.pc := rfl
@[simp] theorem setReg_cond (r : Reg) (v : Word) : (setReg r v s).cond = s.cond := rfl
@[simp] theorem setReg_mem (r : Reg) (v : Word) : (setReg r v s).mem = s.mem := rfl
@[simp] theorem setReg_kbq (r : Reg) (v : Word) : (setReg r v s).kbq = s.kbq := rfl
@[simp] theorem setReg_cycles (r : Reg) (v : Word) : (setReg r v s).cycles = s.cycles := rfl
@[simp] theorem setReg_status (r : Reg) (v : Word) : (setReg r v s).status = s.status := rfl
@[simp] theorem setReg_loaded (r : Reg) (v : Word) : (setReg r v s).loaded = s.loaded := rfl
@[simp] theorem setReg_out (r : Reg) (v : Word) : (setReg r v s).out = s.out := rfl
@[simp] theorem setReg_params (r : Reg) (v : Word) : (setReg r v s).params = s.params := rfl

@[simp] theorem setcc_regs (v : Word) : (setcc v s).regs = s.regs := rfl
@[simp] theorem setcc_pc (v : Word) : (setcc v s).pc = s.pc := rfl
@[simp] theorem setcc_cond (v : Word) : (setcc v s).cond = condOf v := rfl
@[simp] theorem setcc_mem (v : Word) : (setcc v s).mem = s.mem := rfl
@[simp] theorem setcc_kbq (v : Word) : (setcc v s).kbq = s.kbq := rfl
@[simp] theorem setcc_cycles (v : Word) : (setcc v s).cycles = s.cycles := rfl
@[simp] theorem setcc_status (v : Word) : (setcc v s).status = s.status := rfl
@[simp] theorem setcc_loaded (v : Word) : (setcc v s).loaded = s.loaded := rfl
@[simp] theorem setcc_out (v : Word) : (setcc v s).out = s.out := rfl
@[simp] theorem setcc_params (v : Word) : (setcc v s).params = s.params := rfl

@[simp] theorem setResult_regs (r : Reg) (v : Word) : (setResult r v s).regs = s.regs.set r v := rfl
@[simp] theorem setResult_pc (r : Reg) (v : Word) : (setResult r v s).pc = s.pc := rfl
@[simp] theorem setResult_cond (r : Reg) (v : Word) : (setResult r v s).cond = condOf v := rfl
@[simp] theorem setResult_mem (r : Reg) (v : Word) : (setResult r v s).mem = s.mem := rfl
@[simp] theorem setResult_kbq (r : Reg) (v : Word) : (setResult r v s).kbq = s.kbq := rfl
@[simp] theorem setResult_cycles (r : Reg) (v : Word) : (setResult r v s).cycles = s.cycles := rfl
@[simp] theorem setResult_status (r : Reg) (v : Word) : (setResult r v s).status = s.status := rfl
@[simp] theorem setResult_loaded (r : Reg) (v : Word) : (setResult r v s).loaded = s.loaded := rfl
@[simp] theorem setResult_out (r : Reg) (v : Word) : (setResult r v s).out = s.out := rfl
@[simp] theorem setResult_params (r : Reg) (v : Word) : (setResult r v s).params = s.params := rfl

@[simp] theorem memWrite_regs (a v : Word) : (memWrite a v s).regs = s.regs := rfl
@[simp] theorem memWrite_pc (a v : Word) : (memWrite a v s).pc = s.pc := rfl
@[simp] theorem memWrite_cond (a v : Word) : (memWrite a v s).cond = s.cond := rfl
@[simp] theorem memWrite_mem (a v : Word) : (memWrite a v s).mem = s.mem.write a v := rfl
@[simp] theorem memWrite_kbq (a v : Word) : (memWrite a v s).kbq = s.kbq := rfl
@[simp] theorem memWrite_cycles (a v : Word) : (memWrite a v s).cycles = s.cycles := rfl
@[simp] theorem memWrite_status (a v : Word) : (memWrite a v s).status = s.status := rfl
@[simp] theorem memWrite_loaded (a v : Word) : (memWrite a v s).loaded = s.loaded := rfl
@[simp] theorem memWrite_out (a v : Word) : (memWrite a v s).out = s.out := rfl
@[simp] theorem memWrite_params (a v : Word) : (memWrite a v s).params = s.params := rfl

@[simp] theorem injectBytes_regs (bs : List Byte) : (injectBytes bs s).regs = s.regs := rfl
@[simp] theorem injectBytes_pc (bs : List Byte) : (injectBytes bs s).pc = s.pc := rfl
@[simp] theorem injectBytes_cond (bs : List Byte) : (injectBytes bs s).cond = s.cond := rfl
@[simp] theorem injectBytes_mem (bs : List Byte) : (injectBytes bs s).mem = s.mem := rfl
@[simp] theorem injectBytes_kbq (bs : List Byte) : (injectBytes bs s).kbq = s.kbq ++ bs := rfl
@[simp] theorem injectBytes_cycles (bs : List Byte) : (injectBytes bs s).cycles = s.cycles := rfl
@[simp] theorem injectBytes_status (bs : List Byte) : (injectBytes bs s).status = s.status := rfl
@[simp] theorem injectBytes_loaded (bs : List Byte) : (injectBytes bs s).loaded = s.loaded := rfl
@[simp] theorem injectBytes_out (bs : List Byte) : (injectBytes bs s).out = s.out := rfl
@[simp] theorem injectBytes_params (bs : List Byte) : (injectBytes bs s).params = s.params := rfl

@[simp] theorem emit_regs (c : Byte) : (emit c s).regs = s.regs := rfl
@[simp] theorem emit_pc (c : Byte) : (emit c s).pc = s.pc := rfl
@[simp] theorem emit_cond (c : Byte) : (emit c s).cond = s.cond := rfl
@[simp] theorem emit_mem (c : Byte) : (emit c s).mem = s.mem := rfl
@[simp] theorem emit_kbq (c : Byte) : (emit c s).kbq = s.kbq := rfl
@[simp] theorem emit_cycles (c : Byte) : (emit c s).cycles = s.cycles := rfl
@[simp] theorem emit_status (c : Byte) : (emit c s).status = s.status := rfl
@[simp] theorem emit_loaded (c : Byte) : (emit c s).loaded = s.loaded := rfl
@[simp] theorem emit_out (c : Byte) : (emit c s).out = s.out ++ [c] := rfl
@[simp] theorem emit_params (c : Byte) : (emit c s).params = s.params := rfl

@[simp] theorem commit_regs (npc : Word) : (commit npc s).regs = s.regs := rfl
@[simp] theorem commit_pc (npc : Word) : (commit npc s).pc = npc := rfl
@[simp] theorem commit_cond (npc : Word) : (commit npc s).cond = s.cond := rfl
@[simp] theorem commit_mem (npc : Word) : (commit npc s).mem = s.mem := rfl
@[simp] theorem commit_kbq (npc : Word) : (commit npc s).kbq = s.kbq := rfl
@[simp] theorem commit_cycles (npc : Word) : (commit npc s).cycles = s.cycles + 1 := rfl
@[simp] theorem commit_status (npc : Word) : (commit npc s).status = s.status := rfl
@[simp] theorem commit_loaded (npc : Word) : (commit npc s).loaded = s.loaded := rfl
@[simp] theorem commit_out (npc : Word) : (commit npc s).out = s.out := rfl
@[simp] theorem commit_params (npc : Word) : (commit npc s).params = s.params := rfl

@[simp] theorem advance_regs : (advance s).regs = s.regs := rfl
@[simp] theorem advance_pc : (advance s).pc = s.pc + 1#16 := rfl
@[simp] theorem advance_cond : (advance s).cond = s.cond := rfl
@[simp] theorem advance_mem : (advance s).mem = s.mem := rfl
@[simp] theorem advance_kbq : (advance s).kbq = s.kbq := rfl
@[simp] theorem advance_cycles : (advance s).cycles = s.cycles + 1 := rfl
@[simp] theorem advance_status : (advance s).status = s.status := rfl
@[simp] theorem advance_loaded : (advance s).loaded = s.loaded := rfl
@[simp] theorem advance_out : (advance s).out = s.out := rfl
@[simp] theorem advance_params : (advance s).params = s.params := rfl

@[simp] theorem halt_regs : (halt s).regs = s.regs := rfl
@[simp] theorem halt_pc : (halt s).pc = s.pc := rfl
@[simp] theorem halt_cond : (halt s).cond = s.cond := rfl
@[simp] theorem halt_mem : (halt s).mem = s.mem := rfl
@[simp] theorem halt_kbq : (halt s).kbq = s.kbq := rfl
@[simp] theorem halt_cycles : (halt s).cycles = s.cycles := rfl
@[simp] theorem halt_status : (halt s).status = .halted := rfl
@[simp] theorem halt_loaded : (halt s).loaded = s.loaded := rfl
@[simp] theorem halt_out : (halt s).out = s.out := rfl
@[simp] theorem halt_params : (halt s).params = s.params := rfl

@[simp] theorem hostReset_regs : (hostReset s).regs = s.regs := rfl
@[simp] theorem hostReset_pc : (hostReset s).pc = bootAddress := rfl
@[simp] theorem hostReset_cond : (hostReset s).cond = condClear := rfl
@[simp] theorem hostReset_mem : (hostReset s).mem = s.mem := rfl
@[simp] theorem hostReset_kbq : (hostReset s).kbq = s.kbq := rfl
@[simp] theorem hostReset_cycles : (hostReset s).cycles = 0 := rfl
@[simp] theorem hostReset_status : (hostReset s).status = if s.loaded then .ready else .idle := rfl
@[simp] theorem hostReset_loaded : (hostReset s).loaded = s.loaded := rfl
@[simp] theorem hostReset_out : (hostReset s).out = s.out := rfl
@[simp] theorem hostReset_params : (hostReset s).params = s.params := rfl

@[simp] theorem afterRead_regs (a : Word) : (afterRead a s).regs = s.regs := by unfold afterRead; split <;> rfl
@[simp] theorem afterRead_pc (a : Word) : (afterRead a s).pc = s.pc := by unfold afterRead; split <;> rfl
@[simp] theorem afterRead_cond (a : Word) : (afterRead a s).cond = s.cond := by unfold afterRead; split <;> rfl
@[simp] theorem afterRead_kbq (a : Word) : (afterRead a s).kbq = s.kbq := by unfold afterRead; split <;> rfl
@[simp] theorem afterRead_cycles (a : Word) : (afterRead a s).cycles = s.cycles := by unfold afterRead; split <;> rfl
@[simp] theorem afterRead_status (a : Word) : (afterRead a s).status = s.status := by unfold afterRead; split <;> rfl
@[simp] theorem afterRead_loaded (a : Word) : (afterRead a s).loaded = s.loaded := by unfold afterRead; split <;> rfl
@[simp] theorem afterRead_out (a : Word) : (afterRead a s).out = s.out := by unfold afterRead; split <;> rfl
@[simp] theorem afterRead_params (a : Word) : (afterRead a s).params = s.params := by unfold afterRead; split <;> rfl

@[simp] theorem bridge_regs : (bridge s).regs = s.regs := by unfold bridge; split <;> [rfl; split <;> rfl]
@[simp] theorem bridge_pc : (bridge s).pc = s.pc := by unfold bridge; split <;> [rfl; split <;> rfl]
@[simp] theorem bridge_cond : (bridge s).cond = s.cond := by unfold bridge; split <;> [rfl; split <;> rfl]
@[simp] theorem bridge_cycles : (bridge s).cycles = s.cycles := by unfold bridge; split <;> [rfl; split <;> rfl]
@[simp] theorem bridge_status : (bridge s).status = s.status := by unfold bridge; split <;> [rfl; split <;> rfl]
@[simp] theorem bridge_loaded : (bridge s).loaded = s.loaded := by unfold bridge; split <;> [rfl; split <;> rfl]
@[simp] theorem bridge_out : (bridge s).out = s.out := by unfold bridge; split <;> [rfl; split <;> rfl]
@[simp] theorem bridge_params : (bridge s).params = s.params := by unfold bridge; split <;> [rfl; split <;> rfl]

@[simp] theorem memRead_fst (a : Word) : (memRead a s).1 = s.mem.read a := rfl
@[simp] theorem memRead_snd (a : Word) : (memRead a s).2 = afterRead a s := rfl
@[simp] theorem afterFetch_eq : afterFetch s = afterRead s.pc s := rfl
@[simp] theorem fetchedWord_eq : fetchedWord s = s.mem.read s.pc := rfl

end Sys2Proof.Machine
end

