-- ==== Sys2Proof/Laws/Ops.lean ====
section
/-! SUPPORT. One lemma per shared operation that says everything it can do; proofs cite these instead of unfolding. -/

namespace Sys2Proof.Machine

/-! ### Flags -/

/-- `condOf` gives exactly the flags of R39. -/
theorem flagsOf_condOf (v : Word) : FlagsOf v (condOf v) := by
  have hz : v = 0#16 ↔ v.toInt = 0 := by
    rw [← BitVec.toInt_inj]; simp
  refine ⟨by simp [condOf, BitVec.msb_eq_toInt], by simp [condOf, hz], ?_⟩
  simp only [condOf, BitVec.msb_eq_toInt, bne, Bool.and_eq_true, Bool.not_eq_true', decide_eq_false_iff_not,
    beq_eq_false_iff_ne, ne_eq, hz]
  omega

theorem condOf_oneHot (v : Word) : (condOf v).oneHot := by
  by_cases hz : v = 0#16
  · subst hz; exact .inr (.inl (by decide))
  · cases h : v.msb
    · exact .inr (.inr (by simp [condOf, h, hz]))
    · exact .inl (by simp [condOf, h, hz])

/-! ### READY -/

/-- READY is bit 15. -/
theorem isReady_eq (v : Word) : isReady v = v.msb := by
  have hbit : (v &&& readyMask).msb = v.msb := by
    rw [BitVec.msb_and, show readyMask.msb = true from by decide, Bool.and_true]
  have hrest : ∀ k < 15, (v &&& readyMask).getLsbD k = false := fun k hk => by
    interval_cases k <;> simp [readyMask]
  cases h : v.msb
  · have : v &&& readyMask = 0#16 := BitVec.eq_of_getLsbD_eq fun k hk => by
      by_cases h15 : k = 15
      · subst h15
        rw [← BitVec.msb_eq_getLsbD_last (v &&& readyMask), hbit, h]; simp
      · rw [hrest k (by omega)]; simp
    simp [isReady, this]
  · have : v &&& readyMask ≠ 0#16 := fun e => by simp [e, h] at hbit
    simp [isReady, this]

theorem clearReady_eq (v : Word) : clearReady v = v &&& 0x7FFF#16 := rfl

@[simp] theorem isReady_clearReady (v : Word) : isReady (clearReady v) = false := by
  rw [isReady_eq, clearReady_eq, BitVec.msb_and, show (0x7FFF#16).msb = false from by decide, Bool.and_false]

@[simp] theorem isReady_setReady (v : Word) : isReady (setReady v) = true := by
  rw [isReady_eq, setReady, BitVec.msb_or, show readyMask.msb = true from by decide, Bool.or_true]

/-! ### Reads and writes of memory through the accessors -/

/-- What memory reads as after a `MemRead`: the view of R66, and nothing else. -/
theorem afterRead_read (a b : Word) (s : State) : (afterRead a s).mem.read b = readView a s.mem.read b := by
  unfold afterRead readView kbdrAddr
  by_cases ha : a = 0xFE02#16
  · by_cases hb : b = 0xFE00#16
    · simp [ha, hb, kbsrAddr, clearReady_eq]
    · simp [ha, hb, Memory.read_write, kbsrAddr]
  · simp [ha]

theorem afterRead_mem_wf (a : Word) {s : State} (h : s.mem.wf) : (afterRead a s).mem.wf := by
  unfold afterRead
  split
  · exact Memory.wf_write _ _ h
  · exact h

theorem memWrite_read (a v b : Word) (s : State) :
    (memWrite a v s).mem.read b = if b = a then v else s.mem.read b := Memory.read_write ..

/-! ### The keyboard -/

/-- Everything the I/O bridge can do (R46). -/
theorem bridge_cases (s : State) :
    (isReady (s.mem.read kbsrAddr) = false ∧ ∃ b rest, s.kbq = b :: rest ∧
      bridge s = { s with
        kbq := rest
        mem := (s.mem.write kbsrAddr (setReady (s.mem.read kbsrAddr))).write kbdrAddr (zext16 b) }) ∨
    ((isReady (s.mem.read kbsrAddr) = true ∨ s.kbq = []) ∧ bridge s = s) := by
  unfold bridge
  cases hr : isReady (s.mem.read kbsrAddr)
  · cases hq : s.kbq with
    | nil => exact .inr ⟨.inr rfl, by simp⟩
    | cons b rest => exact .inl ⟨rfl, b, rest, rfl, by simp⟩
  · exact .inr ⟨.inl rfl, by simp⟩

theorem bridge_mem_wf {s : State} (h : s.mem.wf) : (bridge s).mem.wf := by
  obtain ⟨-, b, rest, -, hb⟩ | ⟨-, hb⟩ := bridge_cases s <;> rw [hb]
  · exact Memory.wf_write _ _ (Memory.wf_write _ _ h)
  · exact h

/-- Everything `QueuePop` can do (R24). -/
theorem queuePop_cases (s : State) :
    (s.kbq = [] ∧ queuePop s = (none, s)) ∨
    (∃ b rest, s.kbq = b :: rest ∧ queuePop s = (some b, { s with kbq := rest })) := by
  unfold queuePop
  cases hq : s.kbq with
  | nil => exact .inl ⟨rfl, rfl⟩
  | cons b rest => exact .inr ⟨b, rest, rfl, rfl⟩

@[simp] theorem injectBytes_nil (s : State) : injectBytes [] s = s := by
  simp [injectBytes]

/-! ### PUTS -/

/-- Everything the PUTS loop leaves alone. -/
theorem putsLoop_frame {n : Nat} {a : Word} {s t : State} (h : putsLoop n a s = some t) :
    t.regs = s.regs ∧ t.pc = s.pc ∧ t.cond = s.cond ∧ t.kbq = s.kbq ∧ t.cycles = s.cycles ∧ t.status = s.status ∧
      t.loaded = s.loaded ∧ t.params = s.params ∧ (∃ cs, t.out = s.out ++ cs) ∧ (s.mem.wf → t.mem.wf) := by
  induction n generalizing a s with
  | zero => simp [putsLoop] at h
  | succ n ih =>
    unfold putsLoop at h
    split at h
    · obtain rfl := Option.some.inj h
      exact ⟨by simp, by simp, by simp, by simp, by simp, by simp, by simp, by simp, ⟨[], by simp⟩, afterRead_mem_wf a⟩
    · obtain ⟨h1, h2, h3, h4, h5, h6, h7, h8, ⟨cs, h9⟩, h10⟩ := ih h
      simp only [memRead_snd, emit_regs, emit_pc, emit_cond, emit_kbq, emit_cycles, emit_status, emit_loaded, emit_params,
        emit_out, emit_mem, afterRead_regs, afterRead_pc, afterRead_cond, afterRead_kbq, afterRead_cycles, afterRead_status,
        afterRead_loaded, afterRead_params, afterRead_out] at h1 h2 h3 h4 h5 h6 h7 h8 h9 h10
      exact ⟨h1, h2, h3, h4, h5, h6, h7, h8, ⟨_ :: cs, by simpa using h9⟩, fun h => h10 (afterRead_mem_wf a h)⟩

theorem execTrapPuts_of_some {s t : State} (h : putsLoop putsFuel (putsStart (s.regs.get .r0) s.params) s = some t) :
    execTrapPuts s = .next (advance t) := by
  simp only [execTrapPuts, h]

theorem execTrapPuts_of_none {s : State} (h : putsLoop putsFuel (putsStart (s.regs.get .r0) s.params) s = none) :
    execTrapPuts s = .fault .putsNeverCompletes := by
  simp only [execTrapPuts, h]

/-! ### The step -/

/-- Everything `cycle` can do: run one instruction in a ready machine, or nothing. -/
theorem cycle_cases (mid : List Byte) (s : State) :
    (s.loaded = true ∧ s.status = .ready ∧ cycle mid s =
      exec (decode (fetchedWord (injectBytes mid (bridge s)))) (afterFetch (injectBytes mid (bridge s)))) ∨
    ((s.loaded = false ∨ s.status ≠ .ready) ∧ cycle mid s = .next (injectBytes mid s)) := by
  unfold cycle canStep
  cases hl : s.loaded
  · exact .inr ⟨.inl rfl, by simp⟩
  · by_cases hs : s.status = .ready
    · exact .inl ⟨rfl, hs, by simp [hs]⟩
    · exact .inr ⟨.inr hs, by simp [hs]⟩

/-- Everything `step` can do, in the terms of Safety.lean. -/
theorem step_cases (s : State) :
    (s.loaded = true ∧ s.status = .ready ∧ step s = exec (nextInstr s) (handlerState s)) ∨
    ((s.loaded = false ∨ s.status ≠ .ready) ∧ step s = .next s) := by
  have h := cycle_cases [] s
  simp only [injectBytes_nil] at h
  exact h

end Sys2Proof.Machine
end

