-- ==== Sys2Proof/Laws/PerInstr.lean ====
section
/-! SUPPORT. The per-instruction family RowOfWord: the word an instruction is encoded to is of the opcode-table row the instruction
stands for (30_encoding.md R95, R96). -/

namespace Sys2Proof.Laws.RowOfWord

/-- The encoding has the fixed bits of the instruction's own row. -/
def Statement (i : Instr) : Prop := i.row.matchesWord (encode i) = true

/-- A word is of a row when it agrees with the row's pattern on every bit of the mask. -/
theorem of_bits {i : Instr}
    (h : ∀ k < 16, (encode i &&& i.row.mask).getLsbD k = i.row.pattern.getLsbD k) : Statement i := by
  simpa [Statement, OpcodeRow.matchesWord] using BitVec.eq_of_getLsbD_eq h

theorem br (n : Bool) (z : Bool) (p : Bool) (off : BitVec 9) : Statement (.br n z p off) := of_bits fun k hk => by
  interval_cases k <;>
    simp [encode, Instr.row, placeOp, placeBit, getLsbD_place, -BitVec.getLsbD_eq_getElem]

theorem addReg (dr : Reg) (sr1 : Reg) (sr2 : Reg) : Statement (.addReg dr sr1 sr2) := of_bits fun k hk => by
  interval_cases k <;>
    simp [encode, Instr.row, placeOp, placeReg, getLsbD_place, -BitVec.getLsbD_eq_getElem]

theorem addImm (dr : Reg) (sr1 : Reg) (imm : BitVec 5) : Statement (.addImm dr sr1 imm) := of_bits fun k hk => by
  interval_cases k <;>
    simp [encode, Instr.row, placeOp, placeReg, placeBit, getLsbD_place, -BitVec.getLsbD_eq_getElem]

theorem ld (dr : Reg) (off : BitVec 9) : Statement (.ld dr off) := of_bits fun k hk => by
  interval_cases k <;>
    simp [encode, Instr.row, placeOp, placeReg, getLsbD_place, -BitVec.getLsbD_eq_getElem]

theorem st (sr : Reg) (off : BitVec 9) : Statement (.st sr off) := of_bits fun k hk => by
  interval_cases k <;>
    simp [encode, Instr.row, placeOp, placeReg, getLsbD_place, -BitVec.getLsbD_eq_getElem]

theorem jsr (off : BitVec 11) : Statement (.jsr off) := of_bits fun k hk => by
  interval_cases k <;>
    simp [encode, Instr.row, placeOp, placeBit, getLsbD_place, -BitVec.getLsbD_eq_getElem]

theorem jsrr (base : Reg) : Statement (.jsrr base) := of_bits fun k hk => by
  interval_cases k <;>
    simp [encode, Instr.row, placeOp, placeReg, getLsbD_place, -BitVec.getLsbD_eq_getElem]

theorem andReg (dr : Reg) (sr1 : Reg) (sr2 : Reg) : Statement (.andReg dr sr1 sr2) := of_bits fun k hk => by
  interval_cases k <;>
    simp [encode, Instr.row, placeOp, placeReg, getLsbD_place, -BitVec.getLsbD_eq_getElem]

theorem andImm (dr : Reg) (sr1 : Reg) (imm : BitVec 5) : Statement (.andImm dr sr1 imm) := of_bits fun k hk => by
  interval_cases k <;>
    simp [encode, Instr.row, placeOp, placeReg, placeBit, getLsbD_place, -BitVec.getLsbD_eq_getElem]

theorem ldr (dr : Reg) (base : Reg) (off : BitVec 6) : Statement (.ldr dr base off) := of_bits fun k hk => by
  interval_cases k <;>
    simp [encode, Instr.row, placeOp, placeReg, getLsbD_place, -BitVec.getLsbD_eq_getElem]

theorem str (sr : Reg) (base : Reg) (off : BitVec 6) : Statement (.str sr base off) := of_bits fun k hk => by
  interval_cases k <;>
    simp [encode, Instr.row, placeOp, placeReg, getLsbD_place, -BitVec.getLsbD_eq_getElem]

theorem rti : Statement (.rti) := by
  unfold Statement; decide

theorem notReg (dr : Reg) (sr : Reg) : Statement (.notReg dr sr) := of_bits fun k hk => by
  interval_cases k <;>
    simp [encode, Instr.row, placeOp, placeReg, getLsbD_place, -BitVec.getLsbD_eq_getElem]

theorem ldi (dr : Reg) (off : BitVec 9) : Statement (.ldi dr off) := of_bits fun k hk => by
  interval_cases k <;>
    simp [encode, Instr.row, placeOp, placeReg, getLsbD_place, -BitVec.getLsbD_eq_getElem]

theorem sti (sr : Reg) (off : BitVec 9) : Statement (.sti sr off) := of_bits fun k hk => by
  interval_cases k <;>
    simp [encode, Instr.row, placeOp, placeReg, getLsbD_place, -BitVec.getLsbD_eq_getElem]

theorem jmp (base : Reg) : Statement (.jmp base) := of_bits fun k hk => by
  interval_cases k <;>
    simp [encode, Instr.row, placeOp, placeReg, getLsbD_place, -BitVec.getLsbD_eq_getElem]

theorem res : Statement (.res) := by
  unfold Statement; decide

theorem lea (dr : Reg) (off : BitVec 9) : Statement (.lea dr off) := of_bits fun k hk => by
  interval_cases k <;>
    simp [encode, Instr.row, placeOp, placeReg, getLsbD_place, -BitVec.getLsbD_eq_getElem]

theorem trapGetc : Statement (.trapGetc) := by
  unfold Statement; decide

theorem trapOut : Statement (.trapOut) := by
  unfold Statement; decide

theorem trapPuts : Statement (.trapPuts) := by
  unfold Statement; decide

theorem trapHalt : Statement (.trapHalt) := by
  unfold Statement; decide

theorem trapOther (vector : Byte) : Statement (.trapOther vector) := of_bits fun k hk => by
  interval_cases k <;>
    simp [encode, Instr.row, placeOp, getLsbD_place, -BitVec.getLsbD_eq_getElem]

end Sys2Proof.Laws.RowOfWord
end

