-- ==== Sys2Proof/Machine/Assembly.lean ====
section
/-! DEFINITION. The assembler's view of the instructions (30_encoding.md R99, R100; 40_branch.md R121): pseudo-instructions,
directives and spelling. The machine never reads it (log entry 16). -/

namespace Sys2Proof.Machine

/-- The pseudo-instructions of R100. -/
inductive Pseudo where
  | ret
  | getc
  | out
  | puts
  | inChar
  | putsp
  | halt
  | nop (offset9 : BitVec 9)
  deriving DecidableEq, Repr

/-- What a pseudo-instruction stands for (R100). -/
def Pseudo.instr : Pseudo → Instr
  | .ret => .jmp .r7
  | .getc => decodeTrap 0x20#8
  | .out => decodeTrap 0x21#8
  | .puts => decodeTrap 0x22#8
  | .inChar => decodeTrap 0x23#8
  | .putsp => decodeTrap 0x24#8
  | .halt => decodeTrap 0x25#8
  | .nop offset9 => .br false false false offset9

/-- The directives of R100 that put words in memory; `.ORIG` and `.END` put none. -/
inductive Directive where
  | fill (v : Word)
  | blkw (n : Nat)
  | stringz (chars : List Byte)
  deriving DecidableEq, Repr

/-- The words a directive puts in memory (R100). -/
def Directive.words : Directive → List Word
  | .fill v => [v]
  | .blkw n => List.replicate n 0#16
  | .stringz chars => chars.map (fun c => c.setWidth 16) ++ [0#16]

/-- `LABEL - (address + 1)`, of which a PC-relative instruction at `address` holds the low 9 or 11 bits (R99). -/
def labelOffset (label address : Word) : Word := label - (address + 1#16)

/-- `R0` to `R7`. -/
def Reg.spell (r : Reg) : String := "R" ++ toString r.toBits.toNat

/-- An immediate or offset in decimal (R99). -/
def spellImm {n : Nat} (v : BitVec n) : String := "#" ++ toString v.toInt

/-- BR with its condition letters; without any it is the NOP of R121 (and R100). -/
def spellBranch (n z p : Bool) : String :=
  if n || z || p then "BR" ++ (if n then "n" else "") ++ (if z then "z" else "") ++ (if p then "p" else "") else "NOP"

/-- Operands separated as R99 writes them. -/
def spellOps (mnemonic : String) (ops : List String) : String := mnemonic ++ " " ++ String.intercalate ", " ops

/-- The assembler text of an instruction (R99). RES has none: R99 gives it no syntax. What R99, R100 and R121 leave open is DESIGN
CHOICE, log entry 18: an offset #n where R99 has a label; a BR with n = z = p = 0, which R100 and R121 call NOP and give no operand,
as NOP #n with its offset; the letters' order nzp; the vector's hex digits in capitals, without leading zeros. -/
def Instr.spell : Instr → Option String
  | .br n z p off => some (spellOps (spellBranch n z p) [spellImm off])
  | .addReg dr sr1 sr2 => some (spellOps "ADD" [Reg.spell dr, Reg.spell sr1, Reg.spell sr2])
  | .addImm dr sr1 imm => some (spellOps "ADD" [Reg.spell dr, Reg.spell sr1, spellImm imm])
  | .ld dr off => some (spellOps "LD" [Reg.spell dr, spellImm off])
  | .st sr off => some (spellOps "ST" [Reg.spell sr, spellImm off])
  | .jsr off => some (spellOps "JSR" [spellImm off])
  | .jsrr base => some (spellOps "JSRR" [Reg.spell base])
  | .andReg dr sr1 sr2 => some (spellOps "AND" [Reg.spell dr, Reg.spell sr1, Reg.spell sr2])
  | .andImm dr sr1 imm => some (spellOps "AND" [Reg.spell dr, Reg.spell sr1, spellImm imm])
  | .ldr dr base off => some (spellOps "LDR" [Reg.spell dr, Reg.spell base, spellImm off])
  | .str sr base off => some (spellOps "STR" [Reg.spell sr, Reg.spell base, spellImm off])
  | .rti => some "RTI"
  | .notReg dr sr => some (spellOps "NOT" [Reg.spell dr, Reg.spell sr])
  | .ldi dr off => some (spellOps "LDI" [Reg.spell dr, spellImm off])
  | .sti sr off => some (spellOps "STI" [Reg.spell sr, spellImm off])
  | .jmp base => some (spellOps "JMP" [Reg.spell base])
  | .res => none
  | .lea dr off => some (spellOps "LEA" [Reg.spell dr, spellImm off])
  | .trapGetc => some "TRAP x20"
  | .trapOut => some "TRAP x21"
  | .trapPuts => some "TRAP x22"
  | .trapHalt => some "TRAP x25"
  | .trapOther v => some ("TRAP x" ++ (String.ofList (Nat.toDigits 16 v.toNat)).toUpper)

end Sys2Proof.Machine
end

