-- ==== Sys2Proof/Tests/Slice0.lean ====
section
/-! SUPPORT. The model's own tests. Expected results are the vectors of spec/95 (named V-… in the docstrings), the examples of
30_encoding.md, or words written out bit by bit from 30_encoding.md R91 and R95. Then, for every obligation with hypotheses, a
`witness_…` theorem: concrete values that meet them together, clause by clause. -/

namespace Sys2Proof.Tests

open Sys2Proof Sys2Proof.Machine

/-! ### WellFormed -/

/-- The last table row excludes the vectors that name a service: such terms are refused. -/
theorem test_wellFormed_refuses_service_vectors :
    (Instr.trapOther 0x20#8).wellFormed = false ∧ (Instr.trapOther 0x21#8).wellFormed = false ∧
    (Instr.trapOther 0x22#8).wellFormed = false ∧ (Instr.trapOther 0x25#8).wellFormed = false := by decide

/-- Every other vector is one of that row's. -/
theorem test_wellFormed_accepts :
    (Instr.trapOther 0x23#8).wellFormed = true ∧ (Instr.trapOther 0x26#8).wellFormed = true ∧
    (Instr.trapOther 0x00#8).wellFormed = true ∧ (Instr.jsr 0x7FF#11).wellFormed = true := by decide

/-! ### Decode: every constructor, from a word of the spec -/

theorem test_decode_br : decode 0b0000_101_000000010#16 = .br true false true 2#9 := by decide
theorem test_decode_addReg : decode 0b0001_010_000_0_00_001#16 = .addReg .r2 .r0 .r1 := by decide
theorem test_decode_addImm : decode 0b0001_001_011_1_10000#16 = .addImm .r1 .r3 16#5 := by decide
theorem test_decode_ld : decode 0b0010_110_111111111#16 = .ld .r6 511#9 := by decide
theorem test_decode_st : decode 0b0011_111_000000011#16 = .st .r7 3#9 := by decide
theorem test_decode_jsr : decode 0b0100_1_00000010000#16 = .jsr 16#11 := by decide
theorem test_decode_jsrr : decode 0b0100_0_00_100_000000#16 = .jsrr .r4 := by decide
theorem test_decode_andReg : decode 0b0101_011_001_0_00_010#16 = .andReg .r3 .r1 .r2 := by decide
theorem test_decode_andImm : decode 0b0101_000_001_1_00000#16 = .andImm .r0 .r1 0#5 := by decide
theorem test_decode_ldr : decode 0b0110_010_011_111111#16 = .ldr .r2 .r3 63#6 := by decide
theorem test_decode_str : decode 0b0111_001_010_000101#16 = .str .r1 .r2 5#6 := by decide
theorem test_decode_rti : decode 0b1000_000000000000#16 = .rti := by decide
theorem test_decode_notReg : decode 0b1001_100_101_111111#16 = .notReg .r4 .r5 := by decide
theorem test_decode_ldi : decode 0b1010_000_000001001#16 = .ldi .r0 9#9 := by decide
theorem test_decode_sti : decode 0b1011_001_000000100#16 = .sti .r1 4#9 := by decide
theorem test_decode_jmp : decode 0b1100_000_011_000000#16 = .jmp .r3 := by decide
theorem test_decode_res : decode 0b1101_000000000000#16 = .res := by decide
theorem test_decode_lea : decode 0b1110_111_000000010#16 = .lea .r7 2#9 := by decide
theorem test_decode_trapGetc : decode 0b1111_0000_00100000#16 = .trapGetc := by decide
theorem test_decode_trapOut : decode 0b1111_0000_00100001#16 = .trapOut := by decide
theorem test_decode_trapPuts : decode 0b1111_0000_00100010#16 = .trapPuts := by decide
theorem test_decode_trapHalt : decode 0b1111_0000_00100101#16 = .trapHalt := by decide
theorem test_decode_trapOther : decode 0b1111_0000_00100011#16 = .trapOther 0x23#8 := by decide

/-- V-OP8, V-OP17, V-JP3, V-JP11, V-TR3, V-TR15, V-RS2, V-RS4: ignored bits. -/
theorem test_decode_ignored_bits :
    decode 0x1658#16 = .addReg .r3 .r1 .r0 ∧ decode 0x9940#16 = .notReg .r4 .r5 ∧ decode 0xCFFF#16 = .jmp .r7 ∧
    decode 0x473F#16 = .jsrr .r4 ∧ decode 0xF121#16 = .trapOut ∧ decode 0xFF25#16 = .trapHalt ∧
    decode 0xDFFF#16 = .res ∧ decode 0x8FFF#16 = .rti := by decide

/-- The encoder gives the words of the spec's examples (V-L3, V-OP6, V-OP18, V-JP8, V-ST11, P2, P4). -/
theorem test_encode :
    encode (.addImm .r1 .r1 0x1F#5) = 0x127F#16 ∧ encode (.addImm .r3 .r1 0x18#5) = 0x1678#16 ∧
    encode (.notReg .r5 .r5) = 0x9B7F#16 ∧ encode (.jsr 0x400#11) = 0x4C00#16 ∧ encode (.str .r0 .r1 0#6) = 0x7040#16 ∧
    encode (.br true false true 0x1FA#9) = 0x0BFA#16 ∧ encode (.ldi .r1 6#9) = 0xA206#16 ∧
    encode (.lea .r1 11#9) = 0xE20B#16 ∧ encode .trapHalt = 0xF025#16 := by decide

/-- Big-endian bytes; a stream that ends in mid-word is rejected (R290, R291). -/
theorem test_decodeBytes :
    decodeBytes [0x12#8, 0x61#8, 0xF0#8] = .ok (.addImm .r1 .r1 1#5, [0xF0#8]) ∧
    decodeBytes [0xF0#8] = .error .truncatedImage ∧ decodeBytes [] = .error .truncatedImage := by decide

/-- V-L1: width 11, and width 3 at bit 9, through the decoder's own primitive. -/
theorem test_extract :
    extractSigned 0x0400#16 10 0 = .ok 0xFC00#16 ∧ extractSigned 0xF9FF#16 11 9 = .ok 0xFFFC#16 ∧
    extractUnsigned 0xF9FF#16 11 9 = .ok 4#16 ∧
    extractUnsigned 0#16 16 0 = .error (.decodeFieldOutOfRange 16 0) ∧
    extractSigned 0#16 3 4 = .error (.decodeFieldOutOfRange 3 4) := by decide

/-! ### One step

A vector starts after `load` and `reset()`, registers and cells 0 but for those it lists. -/

/-- The Machine ready at `pc` with the listed cells. -/
def ready (pc : Word) (mem : Memory) : State := { State.reset with pc := pc, mem := mem, loaded := true, status := .ready }

/-- The next state of an outcome. -/
def next? : Host.Outcome State Fault Refusal → Option State
  | .next s => some s
  | .fault _ => none
  | .refused _ => none

/-- A view of the state that one step leaves. -/
def after {α : Type} (s : State) (view : State → α) : Option α := (next? (step s)).map view

def condN : Cond := ⟨true, false, false⟩
def condZ : Cond := ⟨false, true, false⟩
def condP : Cond := ⟨false, false, true⟩

/-- `pc` 0x3000, one word there, and registers. -/
def at3000 (w : Word) (regs : Regs) : State := { ready 0x3000#16 [(0x3000, w)] with regs := regs }

def zeros : Regs := Regs.fill 0#16

/-- V-BR1: taken, and wraps. -/
theorem test_br_wraps :
    after { ready 0xFFFF#16 [(0xFFFF, 0x0E01#16)] with cond := condZ } (fun t => (t.pc, t.cond)) = some (0x0001#16, condZ) := by
  decide

/-- V-BR6: right after reset() no branch is taken. -/
theorem test_br_after_reset : after (ready 0x3000#16 [(0x3000, 0x0E05#16)]) (fun t => t.pc) = some 0x3001#16 := by decide

/-- V-OP1. -/
theorem test_addReg_overflow :
    after (at3000 0x1401#16 { zeros with r0 := 0x7FFF#16, r1 := 1#16 }) (fun t => (t.regs.r2, t.cond)) =
      some (0x8000#16, condN) := by decide

/-- V-OP4: both sources are the destination. -/
theorem test_addReg_same_register :
    after (at3000 0x1000#16 { zeros with r0 := 0x4001#16 }) (fun t => (t.regs.r0, t.cond)) = some (0x8002#16, condN) := by decide

/-- V-OP6. -/
theorem test_addImm_negative :
    after (at3000 0x1678#16 { zeros with r1 := 5#16 }) (fun t => (t.regs.r3, t.cond)) = some (0xFFFD#16, condN) := by decide

/-- V-OP10: PC wraps. -/
theorem test_addImm_pc_wraps :
    after { ready 0xFFFF#16 [(0xFFFF, 0x1261#16)] with regs := { zeros with r1 := 5#16 } }
      (fun t => (t.regs.r1, t.cond, t.pc)) = some (6#16, condP, 0#16) := by decide

/-- V-OP11. -/
theorem test_andReg :
    after (at3000 0x5642#16 { zeros with r1 := 0xF0F0#16, r2 := 0x0F0F#16 }) (fun t => (t.regs.r3, t.cond)) =
      some (0#16, condZ) := by decide

/-- V-OP13: the immediate is sign-extended. -/
theorem test_andImm :
    after (at3000 0x5670#16 { zeros with r1 := 0xFFFF#16 }) (fun t => (t.regs.r3, t.cond)) = some (0xFFF0#16, condN) := by decide

/-- V-OP18. -/
theorem test_notReg :
    after (at3000 0x9B7F#16 { zeros with r5 := 0x1234#16 }) (fun t => (t.regs.r5, t.cond)) = some (0xEDCB#16, condN) := by decide

/-- V-LD3: address and PC wrap. -/
theorem test_ld_wraps :
    after (ready 0xFFFF#16 [(0, 0x1234#16), (0xFFFF, 0x2000#16)]) (fun t => (t.regs.r0, t.cond, t.pc)) =
      some (0x1234#16, condP, 0#16) := by decide

/-- V-LD4: a load from KBDR clears READY. -/
theorem test_ld_kbdr :
    after (ready 0xFE01#16 [(0xFE00, 0x8000#16), (0xFE01, 0x2000#16), (0xFE02, 0x0041#16)])
      (fun t => (t.regs.r0, t.cond, t.pc, t.mem.read 0xFE00#16)) = some (0x41#16, condP, 0xFE02#16, 0#16) := by decide

/-- V-L5. -/
theorem test_ldi :
    after (ready 0x3000#16 [(0x0460, 0x8000#16), (0x3000, 0xA009#16), (0x300A, 0x0460#16)]) (fun t => (t.regs.r0, t.cond)) =
      some (0x8000#16, condN) := by decide

/-- V-LD7: the data read sees the pointer read's side effect. -/
theorem test_ldi_pointer_at_kbdr :
    after { ready 0xFE01#16 [(0xFE00, 0x8000#16), (0xFE01, 0xA000#16), (0xFE02, 0xFE00#16)] with
        regs := { zeros with r0 := 0x5555#16 } }
      (fun t => (t.regs.r0, t.cond, t.mem.read 0xFE00#16)) = some (0#16, condZ, 0#16) := by decide

/-- V-LD11: the base is read before the destination is written. -/
theorem test_ldr_base_is_destination :
    after { ready 0x3000#16 [(0x3000, 0x64A0#16), (0x4000, 0x9999#16)] with regs := { zeros with r2 := 0x4020#16 } }
      (fun t => (t.regs.r2, t.cond)) = some (0x9999#16, condN) := by decide

/-- V-LD14. -/
theorem test_lea : after (ready 0#16 [(0, 0xE100#16)]) (fun t => (t.regs.r0, t.cond)) = some (0xFF01#16, condN) := by decide

/-- V-ST2: a store over the instruction itself. -/
theorem test_st_over_itself :
    after (at3000 0x31FF#16 { zeros with r0 := 0x1234#16 }) (fun t => (t.mem, t.pc)) =
      some ([(0x3000, 0x1234#16)], 0x3001#16) := by decide

/-- V-ST4: a store to KBDR leaves READY. -/
theorem test_st_kbdr :
    after (ready 0xFE01#16 [(0xFE00, 0x8000#16), (0xFE01, 0x3000#16), (0xFE02, 0x0041#16)]) (fun t => t.mem) =
      some [(0xFE00, 0x8000#16), (0xFE01, 0x3000#16)] := by decide

/-- V-ST5: a store to KBSR clears READY. -/
theorem test_sti_kbsr :
    after (ready 0x3000#16 [(0x3000, 0xB204#16), (0x3005, 0xFE00#16), (0xFE00, 0x8000#16)]) (fun t => t.mem) =
      some [(0x3000, 0xB204#16), (0x3005, 0xFE00#16)] := by decide

/-- V-ST7: the pointer cell is the target. -/
theorem test_sti_over_pointer :
    after { ready 0x3000#16 [(0x3000, 0xB000#16), (0x3001, 0x3001#16)] with regs := { zeros with r0 := 0x1111#16 } }
      (fun t => t.mem) = some [(0x3000, 0xB000#16), (0x3001, 0x1111#16)] := by decide

/-- V-ST9: the address wraps. -/
theorem test_str_wraps :
    after (at3000 0x7460#16 { zeros with r1 := 1#16, r2 := 0x4020#16 }) (fun t => (t.mem, t.cond)) =
      some ([(0x3000, 0x7460#16), (0xFFE1, 0x4020#16)], condClear) := by decide

/-- V-JP3. -/
theorem test_jmp_ignored_bits : after (at3000 0xCFFF#16 { zeros with r7 := 0x1234#16 }) (fun t => (t.pc, t.regs.r7)) =
    some (0x1234#16, 0x1234#16) := by decide

/-- V-JP7: link and target wrap. -/
theorem test_jsr_wraps : after (ready 0xFFFF#16 [(0xFFFF, 0x4801#16)]) (fun t => (t.regs.r7, t.pc)) = some (0#16, 1#16) := by decide

/-- V-JP9: the target is the old R7. -/
theorem test_jsrr_r7 : after (at3000 0x41C0#16 { zeros with r7 := 0x6000#16 }) (fun t => (t.regs.r7, t.pc)) =
    some (0x3001#16, 0x6000#16) := by decide

/-- V-TR7: the bridge takes one byte and GETC the next. -/
theorem test_getc_two_bytes :
    after { at3000 0xF020#16 { zeros with r0 := 0xFFFF#16 } with kbq := [0x61#8, 0x62#8] }
      (fun t => (t.regs.r0, t.kbq, t.mem, t.cond)) =
      some (0x62#16, [], [(0x3000, 0xF020#16), (0xFE00, 0x8000#16), (0xFE02, 0x0061#16)], condClear) := by decide

/-- V-TR4: an empty queue. -/
theorem test_getc_empty : after (at3000 0xF020#16 { zeros with r0 := 0xFFFF#16 }) (fun t => (t.regs.r0, t.pc)) =
    some (0xFFFF#16, 0x3001#16) := by decide

/-- V-TR1. -/
theorem test_out : after (at3000 0xF021#16 { zeros with r0 := 0x1241#16 }) (fun t => (t.out, t.pc)) =
    some ([0x41#8], 0x3001#16) := by decide

/-- V-TR10, both offsets. -/
def putsState (offset : Fin 2) : State :=
  { ready 0x3000#16 [(0x3000, 0xF022#16), (0x4000, 0x0100#16), (0x4001, 0x1241#16)] with
    regs := { zeros with r0 := 0x4000#16 }, params := { putsStartOffset := offset } }

theorem test_puts : after (putsState 0) (fun t => (t.out, t.regs, t.pc)) =
    some ([0x00#8, 0x41#8], { zeros with r0 := 0x4000#16 }, 0x3001#16) := by decide

theorem test_puts_offset_one : after (putsState 1) (fun t => t.out) = some [0x41#8] := by decide

/-- V-TR12: the scan reads KBDR. -/
theorem test_puts_reads_kbdr :
    after { ready 0x3000#16 [(0x3000, 0xF022#16), (0xFE00, 0x8000#16), (0xFE01, 0x0041#16), (0xFE02, 0x0042#16)] with
        regs := { zeros with r0 := 0xFE01#16 } }
      (fun t => (t.out, t.mem.read 0xFE00#16)) = some ([0x41#8, 0x42#8], 0#16) := by decide

/-- V-TR14, V-L8. -/
theorem test_halt : after (at3000 0xF025#16 zeros) (fun t => (t.status, t.pc, t.cycles, t.stepReturn)) =
    some (.halted, 0x3001#16, 1, .halted true) := by decide

/-- V-TR16, V-TR17. -/
theorem test_trapOther : after (ready 0x3004#16 [(0x3004, 0xF023#16)]) (fun t => (t.status, t.pc, t.cycles)) =
    some (.failed (.unimplementedTrap 0x23#8 0x3004#16), 0x3004#16, 0) := by decide

theorem test_trapOther_putsp : after (at3000 0xF024#16 zeros) (fun t => t.stepReturn) =
    some (.error (.unimplementedTrap 0x24#8 0x3000#16)) := by decide

/-- V-RS2. -/
theorem test_res : after { at3000 0xDFFF#16 zeros with cond := condN } (fun t => (t.pc, t.cond, t.cycles, t.regs)) =
    some (0x3001#16, condN, 1, zeros) := by decide

/-- V-RS3. -/
theorem test_rti : after { at3000 0x8000#16 zeros with cond := condZ } (fun t => (t.pc, t.cond, t.cycles, t.regs)) =
    some (0x3001#16, condZ, 1, zeros) := by decide

/-! ### Bridge, fetch and host transactions -/

/-- V-SY5: a fetch from KBDR clears READY. -/
theorem test_fetch_from_kbdr :
    after (ready 0xFE02#16 [(0xFE00, 0x8000#16), (0xFE02, 0x0061#16)]) (fun t => (t.mem, t.pc)) =
      some ([(0xFE02, 0x0061#16)], 0xFE03#16) := by decide

/-- V-SY6: the bridge keeps KBSR's bits 14:0. -/
theorem test_bridge_delivers :
    after { ready 0x3000#16 [(0xFE00, 0x1234#16)] with kbq := [0x41#8] } (fun t => (t.mem, t.kbq)) =
      some ([(0xFE00, 0x9234#16), (0xFE02, 0x0041#16)], []) := by decide

/-- V-SY7: no delivery while READY is set. -/
theorem test_bridge_waits :
    after { ready 0x3000#16 [(0xFE00, 0x8000#16)] with kbq := [0x41#8] } (fun t => (t.mem, t.kbq)) =
      some ([(0xFE00, 0x8000#16)], [0x41#8]) := by decide

/-- V-SY1: nothing happens before a load. -/
theorem test_step_without_program :
    after { State.reset with kbq := [0x41#8] } (fun t => (t, t.stepReturn)) =
      some ({ State.reset with kbq := [0x41#8] }, .error .noProgramLoaded) := by decide

/-- R76 and R45: a byte injected inside a step reaches that step's GETC, and one injected while no step can run is queued. -/
theorem test_injection_inside_a_step :
    (next? (cycle [0x62#8] { at3000 0xF020#16 zeros with kbq := [0x61#8] })).map (fun t => (t.regs.r0, t.kbq)) =
      some (0x62#16, []) ∧
    (next? (cycle [0x62#8] { at3000 0xF025#16 zeros with status := .halted, kbq := [0x61#8] })).map (fun t => t.kbq) =
      some [0x61#8, 0x62#8] := by decide

/-- V-SY8 (V-L7). -/
theorem test_loadImage :
    loadImage [0x30#8, 0x00#8, 0x12#8, 0x61#8] State.reset = .ok (ready 0x3000#16 [(0x3000, 0x1261#16)]) := by decide

/-- V-SY9: an origin and no words. -/
theorem test_loadImage_origin_only : loadImage [0x30#8, 0x00#8] State.reset = .ok (ready 0x3000#16 []) := by decide

/-- V-SY10 to V-SY12. -/
theorem test_loadImage_truncated :
    loadImage [0x30#8] State.reset = .error .truncatedImage ∧ loadImage [] State.reset = .error .truncatedImage ∧
    loadImage [0x30#8, 0x00#8, 0x12#8, 0x61#8, 0x12#8] State.reset = .error .truncatedImage := by decide

/-- V-SY13, V-SY14: the end of the address space. -/
theorem test_load_boundary :
    loadImage [0xFF#8, 0xFF#8, 0x12#8, 0x34#8] State.reset = .ok (ready 0x3000#16 [(0xFFFF, 0x1234#16)]) ∧
    loadImage [0xFF#8, 0xFF#8, 0x12#8, 0x34#8, 0x56#8, 0x78#8] State.reset = .error .imageTooLarge := by decide

/-- V-SY4: reset() of a failed Machine. -/
theorem test_hostReset :
    hostReset { ready 0x3004#16 [] with status := .failed (.unimplementedTrap 0x23#8 0x3004#16), cycles := 7, cond := condN } =
      ready 0x3000#16 [] := by decide

/-- V-SY15: inspection has no side effect; it answers a word, not a state. -/
theorem test_readMemory : readMemory (ready 0x3000#16 [(0xFE00, 0x8000#16), (0xFE02, 0x0041#16)]) 0xFE02#16 = 0x41#16 := by decide

/-- V-SY16: a stop request before the first step (the value returned is log entry 17). -/
theorem test_run_stop :
    run [⟨[], true, []⟩] (at3000 0xF025#16 zeros) =
      .returned (.halted true) { at3000 0xF025#16 zeros with status := .stopped } := by decide

/-- The packed view of COND: N is bit 2 (R38). -/
theorem test_cond_pack : condN.pack = 4#3 ∧ condZ.pack = 2#3 ∧ condP.pack = 1#3 := by decide

/-- Pseudo-instructions, directives, labels and spelling (R99, R100, R121). -/
theorem test_assembly :
    encode Pseudo.ret.instr = 0xC1C0#16 ∧ Pseudo.inChar.instr = .trapOther 0x23#8 ∧
    Directive.words (.stringz [0x48#8, 0x69#8]) = [0x48#16, 0x69#16, 0#16] ∧
    labelOffset 0x3003#16 0x3005#16 = 0xFFFD#16 := by decide

theorem test_spell : Instr.spell (.br false false true 0x1FD#9) = some "BRp #-3" ∧
    Instr.spell (.addImm .r1 .r1 1#5) = some "ADD R1, R1, #1" := by decide

/-- withFetchWord, on the reset state and under a device cell with a byte waiting. -/
theorem test_withFetchWord :
    after (State.reset.withFetchWord 16 0x1261) (fun t => (t.regs.r1, t.pc)) = some (1#16, 0x3001#16) ∧
    after ({ State.reset with pc := 0xFE02#16, kbq := [0x41#8] }.withFetchWord 16 0xF025) (fun t => t.status) = some .halted := by
  decide

/-! ### Witnesses: the encodings' hypotheses

Each instruction statement's first part has as its hypotheses the opcode bits of a word (and what its second part says holds for
every state and operand). Two words for each: the fields all 0 and all 1. -/

/-- A word meets the hypothesis on its opcode bits. -/
def hasOpcode (w : Word) (op : BitVec 4) : Bool := w.extractLsb' 12 4 == op

theorem witness_AddRegisterForm : hasOpcode 0x1000#16 0x1#4 ∧ (0x1000#16).getLsbD 5 = false ∧
    hasOpcode 0x1FDF#16 0x1#4 ∧ (0x1FDF#16).getLsbD 5 = false := by decide
theorem witness_AddImmediateForm : hasOpcode 0x1020#16 0x1#4 ∧ (0x1020#16).getLsbD 5 = true ∧
    hasOpcode 0x1FFF#16 0x1#4 ∧ (0x1FFF#16).getLsbD 5 = true := by decide
theorem witness_AndRegisterForm : hasOpcode 0x5000#16 0x5#4 ∧ (0x5000#16).getLsbD 5 = false ∧
    hasOpcode 0x5FDF#16 0x5#4 ∧ (0x5FDF#16).getLsbD 5 = false := by decide
theorem witness_AndImmediateForm : hasOpcode 0x5020#16 0x5#4 ∧ (0x5020#16).getLsbD 5 = true ∧
    hasOpcode 0x5FFF#16 0x5#4 ∧ (0x5FFF#16).getLsbD 5 = true := by decide
theorem witness_NotComplements : hasOpcode 0x9000#16 0x9#4 ∧ hasOpcode 0x9FFF#16 0x9#4 := by decide
theorem witness_JumpToBaseRegister : hasOpcode 0xC000#16 0xC#4 ∧ hasOpcode 0xCFFF#16 0xC#4 := by decide
theorem witness_JumpToSubroutineRelative : hasOpcode 0x4800#16 0x4#4 ∧ (0x4800#16).getLsbD 11 = true ∧
    hasOpcode 0x4FFF#16 0x4#4 ∧ (0x4FFF#16).getLsbD 11 = true := by decide
theorem witness_JumpToSubroutineRegister : hasOpcode 0x4000#16 0x4#4 ∧ (0x4000#16).getLsbD 11 = false ∧
    hasOpcode 0x47FF#16 0x4#4 ∧ (0x47FF#16).getLsbD 11 = false ∧ (Reg.r0 ≠ Reg.r7) := by decide
theorem witness_LoadPcRelative : hasOpcode 0x2000#16 0x2#4 ∧ hasOpcode 0x2FFF#16 0x2#4 := by decide
theorem witness_LoadBaseOffset : hasOpcode 0x6000#16 0x6#4 ∧ hasOpcode 0x6FFF#16 0x6#4 := by decide
theorem witness_LoadEffectiveAddress : hasOpcode 0xE000#16 0xE#4 ∧ hasOpcode 0xEFFF#16 0xE#4 := by decide
theorem witness_ReservedOpcodesAreNoOps : hasOpcode 0xD000#16 0xD#4 ∧ hasOpcode 0x8FFF#16 0x8#4 := by decide

/-- BR: taken on each flag, and not taken. -/
theorem witness_BranchOnRequestedFlags : hasOpcode 0x0000#16 0x0#4 ∧ hasOpcode 0x0FFF#16 0x0#4 ∧
    (∀ c ∈ [condN, condZ, condP],
      (true = true ∧ c.n = true) ∨ (true = true ∧ c.z = true) ∨ (true = true ∧ c.p = true)) ∧
    ¬((false = true ∧ condN.n = true) ∨ (true = true ∧ condN.z = true) ∨ (true = true ∧ condN.p = true)) := by decide

/-- LDI through a pointer held in KBDR. -/
theorem witness_LoadIndirect : hasOpcode 0xA000#16 0xA#4 ∧ hasOpcode 0xAFFF#16 0xA#4 ∧
    ∃ s : State, 0xFE02#16 = s.pc + 1#16 + (0#9).signExtend 16 ∧ 0xFE00#16 = s.mem.read 0xFE02#16 :=
  ⟨by decide, by decide, ready 0xFE01#16 [(0xFE02, 0xFE00#16)], by decide, by decide⟩

/-- ST at KBSR. -/
theorem witness_StorePcRelative : hasOpcode 0x3000#16 0x3#4 ∧ hasOpcode 0x3FFF#16 0x3#4 ∧
    ∃ s : State, 0xFE00#16 = s.pc + 1#16 + (0x1FF#9).signExtend 16 ∧ 0xFE02#16 ≠ 0xFE00#16 :=
  ⟨by decide, by decide, ready 0xFE00#16 [], by decide, by decide⟩

/-- STI through a pointer at the last cell. -/
theorem witness_StoreIndirect : hasOpcode 0xB000#16 0xB#4 ∧ hasOpcode 0xBFFF#16 0xB#4 ∧
    ∃ s : State, 0xFFFF#16 = s.pc + 1#16 + (0#9).signExtend 16 ∧ 0xFE02#16 = s.mem.read 0xFFFF#16 ∧ 0#16 ≠ 0xFE02#16 :=
  ⟨by decide, by decide, ready 0xFFFE#16 [(0xFFFF, 0xFE02#16)], by decide, by decide, by decide⟩

/-- STR where the address wraps. -/
theorem witness_StoreBaseOffset : hasOpcode 0x7000#16 0x7#4 ∧ hasOpcode 0x7FFF#16 0x7#4 ∧
    ∃ s : State, 0xFFE1#16 = s.regs.get .r1 + (0x20#6).signExtend 16 ∧ 0#16 ≠ 0xFFE1#16 :=
  ⟨by decide, by decide, { ready 0x3000#16 [] with regs := { zeros with r1 := 1#16 } }, by decide, by decide⟩

/-! ### Witnesses: traps -/

/-- An empty queue and one with a byte. -/
theorem witness_TrapGetcTakesOneByte : hasOpcode 0xFF20#16 0xF#4 ∧ (0xFF20#16).extractLsb' 0 8 = 0x20#8 ∧
    State.reset.kbq = [] ∧ (injectBytes [0xFF#8, 0x00#8] State.reset).kbq = 0xFF#8 :: [0x00#8] ∧ Reg.r7 ≠ Reg.r0 := by decide
theorem witness_TrapOutEmitsLowByte : hasOpcode 0xFF21#16 0xF#4 ∧ (0xFF21#16).extractLsb' 0 8 = 0x21#8 := by decide
theorem witness_TrapHaltHalts : hasOpcode 0xFF25#16 0xF#4 ∧ (0xFF25#16).extractLsb' 0 8 = 0x25#8 := by decide

/-- The vectors next to the services, and the ends of the range. -/
theorem witness_TrapOtherVectorFails : ∀ v ∈ [0x00#8, 0x1F#8, 0x23#8, 0x24#8, 0x26#8, 0xFF#8],
    ∃ w : Word, hasOpcode w 0xF#4 ∧ w.extractLsb' 0 8 = v ∧ v ≠ 0x20#8 ∧ v ≠ 0x21#8 ∧ v ≠ 0x22#8 ∧ v ≠ 0x25#8 := by
  intro v hv
  simp only [List.mem_cons, List.not_mem_nil, or_false] at hv
  obtain rfl | rfl | rfl | rfl | rfl | rfl := hv
  · exact ⟨0xF000#16, by decide⟩
  · exact ⟨0xF01F#16, by decide⟩
  · exact ⟨0xF023#16, by decide⟩
  · exact ⟨0xF024#16, by decide⟩
  · exact ⟨0xF026#16, by decide⟩
  · exact ⟨0xFFFF#16, by decide⟩

/-- Two characters, then the terminator, with every address away from KBDR (V-TR8). -/
theorem witness_TrapPutsPrintsString : ∃ (s : State) (cell : Nat → Word),
    (∀ k, cell k = s.regs.get .r0 + BitVec.ofNat 16 s.params.putsStartOffset.val + BitVec.ofNat 16 k) ∧
    (∀ k < 2, s.mem.read (cell k) ≠ 0#16) ∧ s.mem.read (cell 2) = 0#16 ∧ (∀ k ≤ 2, cell k ≠ 0xFE02#16) :=
  ⟨putsState 0, fun k => 0x4000#16 + BitVec.ofNat 16 0 + BitVec.ofNat 16 k, fun _ => rfl, by decide, by decide, by decide⟩

/-- A memory with the word `PUTS` in every cell: READY is set, and no cell is ever zero. -/
@[irreducible] def putsMemory : Memory := (List.range 65536).map fun k => (k, 0xF022#16)

/-- A Machine that runs PUTS on such a memory. -/
def putsEverywhere : State := { ready 0x3000#16 putsMemory with kbq := [0x41#8] }

theorem read_of_one_value (v : Word) : ∀ m : Memory, (∀ c ∈ m, c.2 = v) → ∀ a : Word, (∃ c ∈ m, c.1 = a.toNat) → m.read a = v
  | [], _, _, ⟨_, hc, _⟩ => by simp at hc
  | d :: rest, hv, a, ⟨c, hc, hca⟩ => by
    unfold Memory.read
    split
    · exact hv d List.mem_cons_self
    · next hne =>
      obtain rfl | hc := List.mem_cons.mp hc
      · exact absurd hca hne
      · exact read_of_one_value v rest (fun c h => hv c (List.mem_cons_of_mem _ h)) a ⟨c, hc, hca⟩

theorem putsEverywhere_read (a : Word) : putsEverywhere.mem.read a = 0xF022#16 := by
  show putsMemory.read a = _
  unfold putsMemory
  refine read_of_one_value _ _ (fun c hc => ?_) a ⟨(a.toNat, 0xF022#16), ?_, rfl⟩
  · obtain ⟨k, -, rfl⟩ := List.mem_map.mp hc; rfl
  · exact List.mem_map_of_mem (f := fun k => (k, 0xF022#16)) (List.mem_range.mpr a.isLt)

/-- A scan of a memory whose cells all have bit 1 set has no end: reading KBDR clears only bit 15. -/
theorem no_puts_end {a : Word} {s t : State} (h : PutsEnds a s t) : ¬∀ b, (s.mem.read b).getLsbD 1 = true := by
  induction h with
  | terminator a s hz =>
    intro hall
    have hw : s.mem.read a = 0#16 := hz
    simpa [hw] using hall a
  | character a s t hz h ih =>
    refine fun hall => ih fun b => ?_
    have hb : (emit (lowByte (memRead a s).1) (memRead a s).2).mem.read b = readView a s.mem.read b := afterRead_read a b s
    rw [hb]
    unfold readView
    split
    · rw [BitVec.getLsbD_and, hall b]; decide
    · exact hall b

theorem putsEverywhere_no_end (a : Word) : ¬∃ t, PutsEnds a putsEverywhere t := fun ⟨_, h⟩ =>
  no_puts_end h fun b => by rw [putsEverywhere_read]; decide

/-- Both clauses: a loop that ends (at once, and after a character) and one that does not. -/
theorem witness_TrapPutsCompletesIffItsLoopEnds : hasOpcode 0xFF22#16 0xF#4 ∧ (0xFF22#16).extractLsb' 0 8 = 0x22#8 ∧
    (∃ t, PutsEnds 0x4001#16 (putsState 1) t) ∧ (∃ t, PutsEnds 0x4002#16 (putsState 1) t) ∧
    ¬∃ t, PutsEnds 0x3000#16 putsEverywhere t :=
  ⟨by decide, by decide,
    ⟨_, .character _ _ _ (by decide) (.terminator _ _ (by decide))⟩, ⟨_, .terminator _ _ (by decide)⟩,
    putsEverywhere_no_end _⟩

/-- The bridge leaves this Machine alone, so its next instruction is PUTS and its handler runs from a scan without an end. -/
theorem putsEverywhere_next : handlerState putsEverywhere = putsEverywhere ∧ nextInstr putsEverywhere = .trapPuts := by
  have hb : bridge putsEverywhere = putsEverywhere := by
    unfold bridge
    rw [putsEverywhere_read]
    rfl
  refine ⟨?_, ?_⟩
  · rw [handlerState, hb]; rfl
  · rw [nextInstr, hb, show fetchedWord putsEverywhere = 0xF022#16 from putsEverywhere_read _]; decide

/-- V-TR13: no bound on the scan finds a terminator. -/
theorem putsLoop_never_ends (n : Nat) (a : Word) (s : State) (hall : ∀ b, (s.mem.read b).getLsbD 1 = true) :
    putsLoop n a s = none := by
  induction n generalizing a s with
  | zero => rfl
  | succ n ih =>
    have hne : (memRead a s).1 ≠ 0#16 := fun hz => by
      have hw : s.mem.read a = 0#16 := hz
      simpa [hw] using hall a
    rw [putsLoop, if_neg hne]
    refine ih _ _ fun b => ?_
    have hb : (emit (lowByte (memRead a s).1) (memRead a s).2).mem.read b = readView a s.mem.read b := afterRead_read a b s
    rw [hb]
    unfold readView
    split
    · rw [BitVec.getLsbD_and, hall b]; decide
    · exact hall b

theorem test_puts_hangs : execTrapPuts putsEverywhere = .fault .putsNeverCompletes :=
  execTrapPuts_of_none (putsLoop_never_ends _ _ _ fun b => by rw [putsEverywhere_read]; decide)

theorem witness_FatalStepCommitsNothing :
    ((ready 0x3004#16 [(0x3004, 0xF023#16)]).loaded = true ∧ (ready 0x3004#16 [(0x3004, 0xF023#16)]).status = .ready ∧
      nextInstr (ready 0x3004#16 [(0x3004, 0xF023#16)]) = .trapOther 0x23#8) ∧
    putsEverywhere.loaded = true ∧ putsEverywhere.status = .ready ∧ nextInstr putsEverywhere = .trapPuts ∧
    ¬∃ t, PutsEnds (putsEverywhere.regs.get .r0 + BitVec.ofNat 16 putsEverywhere.params.putsStartOffset.val)
      (handlerState putsEverywhere) t := by
  refine ⟨by decide, rfl, rfl, putsEverywhere_next.2, ?_⟩
  rw [putsEverywhere_next.1]
  exact putsEverywhere_no_end _

/-! ### Witnesses: encoding, loading, memory, keyboard -/

theorem witness_DecodeOfEncodeIsIdentity : (Instr.trapOther 0xFF#8).wellFormed = true := by decide

/-- Both directions of a word pair: an ignored bit, and a bit that is read. -/
theorem witness_WordsDifferingInIgnoredBitsDecodeAlike :
    decode 0x1658#16 = decode 0x1640#16 ∧ (0x1658#16 ^^^ 0x1640#16) &&& ~~~(decode 0x1640#16).row.ignored = 0#16 ∧
    decode 0x1641#16 ≠ decode 0x1640#16 := by decide

/-- Fields at the ends of the range, and hi, lo outside it on each side. -/
theorem witness_FieldExtractionContract : (0 ≤ 0 ∧ 0 ≤ 15 ∧ 15 ≤ 15) ∧ (15 ≤ 15) ∧
    ¬((0 : Int) ≤ -1 ∧ (-1 : Int) ≤ 3 ∧ (3 : Int) ≤ 15) ∧ ¬((0 : Int) ≤ 4 ∧ (4 : Int) ≤ 3 ∧ (3 : Int) ≤ 15) ∧
    ¬((0 : Int) ≤ 0 ∧ (0 : Int) ≤ 16 ∧ (16 : Int) ≤ 15) := by decide

theorem witness_SignedFieldsKeepTheirValue : (1 ≤ 1 ∧ 1 ≤ 16) ∧ (1 ≤ 16 ∧ 16 ≤ 16) := by decide

/-- reset() with a program and without. -/
theorem witness_ResetTransaction : (ready 0#16 []).loaded = true ∧ State.reset.loaded = false := by decide

/-- A MEM_INIT that gives KBSR and KBDR other values than the construction leaves. -/
theorem witness_ConstructedMachine : ∃ s, s = construct (Regs.fill 0x1234#16) [(0xFE00, 0x8000#16), (0xFE02, 0x41#16)] ⟨1⟩ ∧
    0xFE01#16 ≠ 0xFE00#16 ∧ 0xFE01#16 ≠ 0xFE02#16 := ⟨_, rfl, by decide, by decide⟩

/-- Loads that just fit, that just do not, and none at all; from Idle and from another status. -/
theorem witness_LoadWritesItsWords :
    (0xFFFE#16).toNat + [1#16, 2#16].length ≤ 65536 ∧ (0xFFFF#16).toNat + [1#16, 2#16].length > 65536 ∧
    (0xFFFF#16).toNat + ([] : List Word).length ≤ 65536 ∧ 0 < [1#16, 2#16].length ∧
    (0xFFFD#16).toNat < (0xFFFE#16).toNat ∧ (0x3000#16).toNat + [1#16].length ≤ (0x3001#16).toNat ∧
    State.reset.status = .idle ∧ (ready 0#16 []).status ≠ .idle := by decide

theorem witness_ImageIsBigEndian : ([] : List Byte).length < 2 ∧ [0x30#8].length < 2 ∧ [0x30#8, 0x00#8, 0x12#8].length % 2 = 1 := by
  decide

/-- The memory of a write and its undoing. -/
theorem witness_CanonicalMemoriesAreEqualWhenTheyReadAlike :
    Memory.wf [(0x0000, 1#16), (0xFFFF, 2#16)] ∧ ∀ a : Word, Memory.read [(0x0000, 1#16), (0xFFFF, 2#16)] a =
      (Memory.write (Memory.write [] 0xFFFF#16 2#16) 0#16 1#16).read a := ⟨by decide, fun _ => rfl⟩

/-- A read of KBDR and one of its neighbour. -/
theorem witness_MemReadSideEffect : (∃ v t, memRead 0xFE02#16 (ready 0#16 [(0xFE00, 0x8000#16), (0xFE02, 0x41#16)]) = (v, t)) ∧
    0xFE01#16 ≠ 0xFE02#16 ∧ 0xFE00#16 ≠ 0xFE02#16 := ⟨⟨_, _, rfl⟩, by decide, by decide⟩

/-- A delivery (V-SY6), and none for either reason. -/
theorem witness_BridgeDeliversOneByte :
    (∃ s : State, (s.mem.read 0xFE00#16).getLsbD 15 = false ∧ s.kbq = 0x41#8 :: [] ∧ s.loaded = true ∧ s.status = .ready) ∧
    ((ready 0#16 [(0xFE00, 0x8000#16)]).mem.read 0xFE00#16).getLsbD 15 = true ∧ (ready 0#16 []).kbq = [] :=
  ⟨⟨{ ready 0#16 [(0xFE00, 0x1234#16)] with kbq := [0x41#8] }, by decide⟩, by decide, by decide⟩

/-- A store over an unread byte (V-ST4). -/
theorem witness_UnreadByteIsKept : ∃ s t : State, (s.mem.read 0xFE00#16).getLsbD 15 = true ∧ step s = .next t ∧
    t.mem.read 0xFE02#16 ≠ s.mem.read 0xFE02#16 :=
  ⟨ready 0xFE01#16 [(0xFE00, 0x8000#16), (0xFE01, 0x3000#16), (0xFE02, 0x0041#16)], _, by decide, rfl, by decide⟩

/-- Two bytes in one step (V-TR7). -/
theorem witness_QueueIsFirstInFirstOut :
    (∃ s t : State, step s = .next t ∧ t.kbq = s.kbq.drop 2 ∧ s.kbq.length = 2) ∧
    ∃ s t : State, cycle [0x61#8] s = .next t ∧ s.status = .halted :=
  ⟨⟨{ ready 0x3000#16 [(0x3000, 0xF020#16)] with kbq := [0x61#8, 0x62#8] }, _, rfl, by decide, by decide⟩,
    ⟨{ ready 0x3000#16 [] with status := .halted }, _, rfl, by decide⟩⟩

theorem witness_InjectionInsideAStepIsSeenByGetcOnly :
    (∃ t, (ready 0x3000#16 []).loaded = true ∧ (ready 0x3000#16 []).status = .ready ∧
      nextInstr (ready 0x3000#16 []) ≠ .trapGetc ∧ step (ready 0x3000#16 []) = .next t) ∧
    (nextInstr putsEverywhere ≠ .trapGetc ∧ step putsEverywhere = .fault .putsNeverCompletes) ∧
    State.reset.loaded = false ∧ { ready 0x3000#16 [] with status := .halted }.status ≠ .ready := by
  refine ⟨⟨_, by decide, by decide, by decide, rfl⟩, ⟨by rw [putsEverywhere_next.2]; decide, ?_⟩, by decide, by decide⟩
  obtain ⟨-, -, hs⟩ | ⟨hn, -⟩ := step_cases putsEverywhere
  · rw [hs, putsEverywhere_next.2, putsEverywhere_next.1]
    exact test_puts_hangs
  · obtain h | h := hn
    · exact absurd h (by decide)
    · exact absurd rfl h

/-! ### Witnesses: the step -/

/-- A fetch from KBDR right after a delivery, and one from memory. -/
theorem witness_StepRunsTheDecodedInstruction :
    (∃ (s : State) (i : Instr), s.loaded = true ∧ s.status = .ready ∧ i.wellFormed = true ∧
      (bridge s).mem.read s.pc = encode i ∧ s.pc = 0xFE02#16) ∧
    ∃ (s : State) (w : Word), s.loaded = true ∧ s.status = .ready ∧ (bridge s).mem.read s.pc = w ∧ w = 0xFF25#16 :=
  ⟨⟨{ ready 0xFE02#16 [] with kbq := [0x41#8] }, .br false false false 0x41#9, by decide⟩,
    ⟨ready 0x3000#16 [(0x3000, 0xFF25#16)], 0xFF25#16, by decide⟩⟩

theorem witness_PlacedWordIsTheNextInstruction : 0xFFFF < 65536 ∧ 0 < 65536 := by decide

theorem witness_EndedMachineOnlyLeavesByReset :
    State.reset.loaded = false ∧ State.reset.status = .idle ∧
    (∃ s : State, s.status = .halted ∧ s.loaded = true ∧ ∃ t, load 0x3000#16 [1#16] s = .ok t) ∧ (∃ s : State, s.status = .stopped) ∧
    ∃ s t : State, s.status = .failed (.unimplementedTrap 0x23#8 0x3004#16) ∧ cycle [] s = .next t :=
  ⟨by decide, by decide, ⟨{ ready 0#16 [] with status := .halted }, by decide, by decide, _, rfl⟩,
    ⟨{ ready 0#16 [] with status := .stopped }, by decide⟩,
    ⟨{ ready 0#16 [] with status := .failed (.unimplementedTrap 0x23#8 0x3004#16) }, _, by decide, rfl⟩⟩

theorem witness_NoProgramLoadedBeforeALoad : State.reset.loaded = false ∧ State.reset.status = .idle := by decide

/-- One state for each of the three ends. -/
theorem witness_OnlyTrapsEndAMachine : (∀ s ∈ [ready 0x3000#16 [], at3000 0xF025#16 zeros, at3000 0xF023#16 zeros],
    s.loaded = true ∧ s.status = .ready) ∧ (∃ t, step (ready 0x3000#16 []) = .next t) ∧
    (∃ t, step (at3000 0xF025#16 zeros) = .next t) ∧ ∃ t, step (at3000 0xF023#16 zeros) = .next t :=
  ⟨by decide, ⟨_, rfl⟩, ⟨_, rfl⟩, ⟨_, rfl⟩⟩

theorem witness_NextProgramCounterDefault : (∃ t, exec .rti (ready 0xFFFF#16 []) = .next t) ∧
    ∃ t, exec (.trapOther 0x23#8) (ready 0xFFFF#16 []) = .next t := ⟨⟨_, rfl⟩, ⟨_, rfl⟩⟩

/-- One step that writes a register for each clause. -/
theorem witness_RegisterWriters :
    (∃ t, step (at3000 0x1261#16 zeros) = .next t ∧ t.regs.get .r1 ≠ zeros.get .r1) ∧
    (∃ t, step (at3000 0x4810#16 zeros) = .next t ∧ t.regs.get .r7 ≠ zeros.get .r7) ∧
    ∃ t, step { at3000 0xF020#16 zeros with kbq := [1#8, 2#8] } = .next t ∧ t.regs.get .r0 ≠ zeros.get .r0 :=
  ⟨⟨_, rfl, by decide⟩, ⟨_, rfl, by decide⟩, ⟨_, rfl, by decide⟩⟩

theorem witness_FlagSetters :
    (∃ t, exec (.lea .r0 0#9) (ready 0x3000#16 []) = .next t ∧ resultReg (.lea .r0 0#9) = some .r0) ∧
    ∃ t, exec .trapGetc (ready 0x3000#16 []) = .next t ∧ resultReg .trapGetc = none := ⟨⟨_, rfl, rfl⟩, ⟨_, rfl, rfl⟩⟩

theorem witness_OnlyBranchReadsFlags : (∀ n z p off, Instr.trapOut ≠ .br n z p off) ∧
    ∃ t, exec .trapOut { ready 0x3000#16 [] with cond := condN } = .next t := ⟨by simp, ⟨_, rfl⟩⟩

theorem witness_FlagsAreOneHotOnceSet :
    (∃ t, exec (.lea .r0 0#9) (ready 0x3000#16 []) = .next t ∧ resultReg (.lea .r0 0#9) = some .r0) ∧
    (∃ t, step { ready 0x3000#16 [] with cond := condZ } = .next t ∧ condZ.oneHot) ∧
    ∃ t, step (ready 0x3000#16 []) = .next t ∧ (ready 0x3000#16 []).cond = ⟨false, false, false⟩ ∧
      resultReg (nextInstr (ready 0x3000#16 [])) = none :=
  ⟨⟨_, rfl, rfl⟩, ⟨_, rfl, by decide⟩, ⟨_, rfl, by decide, by decide⟩⟩

theorem witness_CyclesCountCompletedSteps :
    (∃ t, (at3000 0xF025#16 zeros).loaded = true ∧ (at3000 0xF025#16 zeros).status = .ready ∧
      step (at3000 0xF025#16 zeros) = .next t) ∧
    (∃ t, step (at3000 0xF023#16 zeros) = .next t) ∧ ∃ t, exec .res (ready 0#16 []) = .next t :=
  ⟨⟨_, by decide, by decide, rfl⟩, ⟨_, rfl⟩, ⟨_, rfl⟩⟩

theorem witness_OutputIsOnlyAppendedTo :
    (∃ t, step (at3000 0xF021#16 zeros) = .next t) ∧
    ∃ t, exec .trapOut (ready 0#16 []) = .next t ∧ t.out = (ready 0#16 []).out ++ [0#8] := ⟨⟨_, rfl⟩, ⟨_, rfl, rfl⟩⟩

theorem witness_MemoryWriters : ∃ t, step (at3000 0x31FF#16 zeros) = .next t ∧
    t.mem.read 0x3000#16 ≠ (at3000 0x31FF#16 zeros).mem.read 0x3000#16 := ⟨_, rfl, by decide⟩

theorem witness_RunHonoursStopsBetweenSteps :
    (ready 0x3000#16 []).loaded = true ∧ (ready 0x3000#16 []).status = .ready ∧
    (RunInput.mk [0x41#8] true []).stop = true ∧ (RunInput.mk [0x41#8] false [0x42#8]).stop = false ∧
    (∃ t, cycle [] (injectBytes [0x41#8] (ready 0x3000#16 [])) = .next t ∧ t.status = .ready) ∧
    ∃ t, cycle [] (injectBytes [0x41#8] (at3000 0xF025#16 zeros)) = .next t ∧ t.status ≠ .ready :=
  ⟨by decide, by decide, by decide, by decide, ⟨_, rfl, by decide⟩, ⟨_, rfl, by decide⟩⟩

/-! ### Witnesses: the invariant -/

/-- The invariant of a Machine that has not failed. -/
theorem inv_of {s : State} (hm : s.mem.wf) (hi : s.status = .idle ↔ s.loaded = false) (hf : s.cond = condClear ∨ s.cond.oneHot)
    (hn : ∀ e, s.status ≠ .failed e) : MachineInv s := ⟨hm, hi, hf, fun e h => absurd h (hn e)⟩

theorem inv_at3000 (w : Word) (hw : w ≠ 0#16) : MachineInv (at3000 w zeros) :=
  inv_of ⟨List.pairwise_singleton .., fun c hc => by
    obtain rfl := List.mem_singleton.mp hc; exact ⟨show 0x3000 < memorySize from by decide, hw⟩⟩ (by simp [at3000, ready]) (.inl rfl) (by simp [at3000, ready])

/-- A run that halts, and one that stops at once. -/
theorem witness_RunReturnsOnlyWhenEnded :
    (MachineInv (at3000 0xF025#16 zeros) ∧ ∃ r t, run [⟨[], false, []⟩] (at3000 0xF025#16 zeros) = .returned r t) ∧
    ∃ r t, run [⟨[], true, []⟩] (at3000 0xF025#16 zeros) = .returned r t :=
  ⟨⟨inv_at3000 _ (by decide), _, _, rfl⟩, ⟨_, _, rfl⟩⟩

/-- A step to Failed, from a state that meets the invariant, and a step with an injection inside it. -/
theorem witness_StepKeepsTheInvariant :
    (MachineInv (at3000 0xF023#16 zeros) ∧ ∃ t, step (at3000 0xF023#16 zeros) = .next t) ∧
    MachineInv (at3000 0xF020#16 zeros) ∧ ∃ t, cycle [0x41#8] (at3000 0xF020#16 zeros) = .next t :=
  ⟨⟨inv_at3000 _ (by decide), _, rfl⟩, inv_at3000 _ (by decide), _, rfl⟩

theorem witness_HostTransactionsKeepTheInvariant :
    Memory.wf [(0xFE00, 0x8000#16)] ∧ MachineInv (at3000 0xF025#16 zeros) ∧
    (∃ t, load 0xFFFF#16 [1#16] (at3000 0xF025#16 zeros) = .ok t) ∧
    ∃ t, loadImage [0x30#8, 0x00#8] (at3000 0xF025#16 zeros) = .ok t :=
  ⟨by decide, inv_at3000 _ (by decide), ⟨_, rfl⟩, ⟨_, rfl⟩⟩

end Sys2Proof.Tests
end

/-! PROOFS of the family 00_scope.md: the decoder's field primitives (R23, R247) and the host's transactions (R25). -/

namespace Sys2Proof

/-! ### The field primitives: when they answer, and what -/

theorem fieldInRange_iff (hi lo : Int) : fieldInRange hi lo = true ↔ 0 ≤ lo ∧ lo ≤ hi ∧ hi ≤ 15 := by
  simp [fieldInRange, and_assoc]

theorem extractUnsigned_of_not_inRange (w : Word) {hi lo : Int} (h : ¬(0 ≤ lo ∧ lo ≤ hi ∧ hi ≤ 15)) :
    extractUnsigned w hi lo = .error (.decodeFieldOutOfRange hi lo) :=
  if_neg (mt (fieldInRange_iff hi lo).mp h)

theorem extractSigned_of_not_inRange (w : Word) {hi lo : Int} (h : ¬(0 ≤ lo ∧ lo ≤ hi ∧ hi ≤ 15)) :
    extractSigned w hi lo = .error (.decodeFieldOutOfRange hi lo) :=
  if_neg (mt (fieldInRange_iff hi lo).mp h)

/-- The signed companion of `extractUnsigned_eq_bits` (R23; 90_conflicts.md C2). -/
theorem extractSigned_eq_bits (w : Word) (hi lo : Nat) (h : lo ≤ hi) (hhi : hi ≤ 15) :
    extractSigned w hi lo = .ok ((bits w lo (hi - lo + 1)).signExtend 16) := by
  have hr : fieldInRange hi lo = true := (fieldInRange_iff hi lo).mpr (by omega)
  have hl : ((hi : Int) - lo + 1).toNat = hi - lo + 1 := by omega
  simp only [extractSigned, hr, if_true, bits, Int.toNat_natCast]
  rw [hl]

/-! ### The bits of a field extended to a word -/

theorem getLsbD_setWidth_bits (w : Word) (lo len : Nat) {k : Nat} (hk : k < 16) :
    ((bits w lo len).setWidth 16).getLsbD k = (decide (k < len) && w.getLsbD (lo + k)) := by
  simp [getLsbD_bits, hk]

/-- Within the field a bit is the word's; above it, it is the field's top bit. -/
theorem getLsbD_signExtend_bits (w : Word) (lo len : Nat) {k : Nat} (hk : k < 16) :
    ((bits w lo (len + 1)).signExtend 16).getLsbD k = if k ≤ len then w.getLsbD (lo + k) else w.getLsbD (lo + len) := by
  rw [BitVec.getLsbD_signExtend, BitVec.msb_eq_getLsbD_last, getLsbD_bits, getLsbD_bits]
  by_cases hle : k ≤ len
  · simp [hk, hle, Nat.lt_succ_of_le hle]
  · simp [hk, hle]

/-- Settles O28: in range both primitives are `bits`, extended, and their bits are those of `bits`; out of range the guard
fails. -/
theorem fieldExtractionContract : Obligations.FieldExtractionContract := by
  refine ⟨fun w hi lo hle hhi => ?_, fun w hi lo h => ?_, by decide⟩
  · refine ⟨_, _, extractUnsigned_eq_bits w hi lo hle hhi, extractSigned_eq_bits w hi lo hle hhi, fun k hk => ⟨?_, ?_⟩⟩
    · simp [getLsbD_setWidth_bits w lo _ hk]
    · rw [getLsbD_signExtend_bits w lo _ hk, Nat.add_sub_cancel' hle]
  · exact ⟨extractUnsigned_of_not_inRange w h, extractSigned_of_not_inRange w h⟩

/-- Settles O29: the result is the field, sign-extended to a word that is at least as wide, which keeps its value. -/
theorem signedFieldsKeepTheirValue : Obligations.SignedFieldsKeepTheirValue := by
  intro w n hpos hn
  obtain ⟨m, rfl⟩ := Nat.exists_eq_add_of_le' hpos
  have hext : extractSigned w (((m + 1 : Nat) : Int) - 1) 0 = .ok ((bits w 0 (m + 1)).signExtend 16) := by
    simpa using extractSigned_eq_bits w m 0 (Nat.zero_le m) (by omega)
  exact ⟨_, hext, BitVec.toInt_signExtend_of_le hn⟩

end Sys2Proof

namespace Sys2Proof.Machine

/-! ### What the host's transactions can do -/

/-- Everything honouring a stop request can do (R258). -/
theorem honourStop_cases (s : State) :
    (s.status = .ready ∧ honourStop s = { s with status := .stopped }) ∨ (s.status ≠ .ready ∧ honourStop s = s) := by
  by_cases h : s.status = .ready
  · exact .inl ⟨h, if_pos h⟩
  · exact .inr ⟨h, if_neg h⟩

/-- Everything a load that succeeds does (R289). -/
theorem load_eq_ok {origin : Word} {words : List Word} {s t : State} (h : load origin words s = .ok t) :
    origin.toNat + words.length ≤ memorySize ∧
      t = { s with
        mem := s.mem.writeWords origin words
        loaded := true
        status := if s.status = .idle then .ready else s.status } := by
  unfold load at h
  split at h
  · cases h
  · next hfit => exact ⟨Nat.le_of_not_gt hfit, (Except.ok.inj h).symm⟩

/-- An image load that succeeds is the load of the words after its origin (R290). -/
theorem loadImage_eq_ok {image : List Byte} {s t : State} (h : loadImage image s = .ok t) :
    ∃ origin words, imageWords image = some (origin :: words) ∧ load origin words s = .ok t := by
  unfold loadImage at h
  split at h
  · next origin words himage => exact ⟨origin, words, himage, h⟩
  · cases h

/-! ### The transactions keep the invariant -/

theorem machineInv_construct (regInit : Regs) {memInit : Memory} (params : Params) (h : memInit.wf) :
    MachineInv (construct regInit memInit params) where
  memory := Memory.wf_write kbdrAddr 0#16 (Memory.wf_write kbsrAddr 0#16 h)
  idle := by simp [construct]
  flags := .inl rfl
  failure := by simp [construct]

theorem machineInv_hostReset {s : State} (h : MachineInv s) : MachineInv (hostReset s) where
  memory := h.memory
  idle := by cases hl : s.loaded <;> simp [hl]
  flags := .inl rfl
  failure := by cases hl : s.loaded <;> simp [hl]

theorem machineInv_injectBytes (bs : List Byte) {s : State} (h : MachineInv s) : MachineInv (injectBytes bs s) :=
  ⟨h.memory, h.idle, h.flags, h.failure⟩

theorem machineInv_honourStop {s : State} (h : MachineInv s) : MachineInv (honourStop s) := by
  obtain ⟨hready, heq⟩ | ⟨-, heq⟩ := honourStop_cases s <;> rw [heq]
  · have hloaded : s.loaded ≠ false := fun hl => by simpa [hready] using h.idle.mpr hl
    exact ⟨h.memory, by simp [hloaded], h.flags, by simp⟩
  · exact h

/-- A load leaves Idle, and leaves every other status, a failure with its PC included. -/
theorem machineInv_load {origin : Word} {words : List Word} {s t : State} (h : MachineInv s)
    (hload : load origin words s = .ok t) : MachineInv t := by
  obtain ⟨-, rfl⟩ := load_eq_ok hload
  have hmem := Memory.wf_writeWords origin words h.memory
  by_cases hidle : s.status = .idle
  · exact ⟨hmem, by simp [hidle], h.flags, by simp [hidle]⟩
  · exact ⟨hmem, by simp [hidle], h.flags, by simpa [hidle] using h.failure⟩

/-- Settles O60, one transaction at a time; an image load is a load. -/
theorem hostTransactionsKeepTheInvariant : Obligations.HostTransactionsKeepTheInvariant := by
  refine ⟨fun regInit memInit params hwf => machineInv_construct regInit params hwf, fun s h => ?_,
    fun s t origin words h => machineInv_load h, fun s t image h himage => ?_⟩
  · exact ⟨machineInv_hostReset h, fun bs => machineInv_injectBytes bs h, machineInv_honourStop h⟩
  · obtain ⟨origin, words, -, hload⟩ := loadImage_eq_ok himage
    exact machineInv_load h hload

end Sys2Proof.Machine

/-! PROOFS of the family 10_state.md: what each instruction does to each component of the state of R30, and the invariant. -/

namespace Sys2Proof

/-! ### The vectors the decoder reads as no service's -/

theorem isServiceVector_of_decodeTrap {u v : Byte} (h : decodeTrap u = .trapOther v) : isServiceVector v = false := by
  unfold decodeTrap at h
  split_ifs at h with hgetc hout hputs hhalt
  obtain rfl := Instr.trapOther.inj h
  simp [isServiceVector, hgetc, hout, hputs, hhalt]

/-- The decoder never reads a service's vector as an unrecognised one (45_trap.md R201, R210). -/
theorem isServiceVector_of_decode {w : Word} {v : Byte} (h : decode w = .trapOther v) : isServiceVector v = false := by
  unfold decode at h
  split at h
  case h_16 => exact isServiceVector_of_decodeTrap h
  case h_2 | h_5 | h_6 => split at h <;> cases h
  all_goals cases h

end Sys2Proof

namespace Sys2Proof.Machine

/-! ### Effective addresses (R37) -/

theorem toNat_add_one (a : Word) : (a + 1#16).toNat = (a.toNat + 1) % 65536 :=
  BitVec.toNat_add ..

/-- A word plus a signed offset, modulo 65536, whatever the offset's width. -/
theorem toNat_add_sext16 {n : Nat} (a : Word) (offset : BitVec n) :
    ((a + sext16 offset).toNat : Int) = ((a.toNat : Int) + offset.toInt) % 65536 := by
  have hsext : ((sext16 offset).toNat : Int) = offset.toInt % 65536 := by
    simp only [sext16, BitVec.signExtend, BitVec.toNat_ofInt]
    omega
  rw [BitVec.toNat_add]
  omega

/-- Settles O30: both address forms are a word plus a signed offset. -/
theorem effectiveAddressesWrap : Obligations.EffectiveAddressesWrap := by
  have hpc : ∀ {n : Nat} (pc : Word) (offset : BitVec n),
      ((pcRelative pc offset).toNat : Int) = ((pc.toNat : Int) + 1 + offset.toInt) % 65536 := fun pc offset => by
    rw [pcRelative, toNat_add_sext16, toNat_add_one]
    omega
  exact ⟨hpc, hpc, toNat_add_sext16⟩

/-! ### The keyboard registers, the bridge and the queue (R43 to R46) -/

theorem isReady_eq_getLsbD (v : Word) : isReady v = v.getLsbD 15 := by
  rw [isReady_eq, BitVec.msb_eq_getLsbD_last]

theorem setReady_getLsbD (v : Word) {k : Nat} (hk : k < 15) : (setReady v).getLsbD k = v.getLsbD k := by
  have hmask : readyMask.getLsbD k = false := by interval_cases k <;> rfl
  rw [setReady, BitVec.getLsbD_or, hmask, Bool.or_false]

theorem toNat_zext16 (b : Byte) : (zext16 b).toNat = b.toNat :=
  BitVec.toNat_setWidth_of_le (by decide)

theorem bridge_of_cons {s : State} {b : Byte} {rest : List Byte} (hready : isReady (s.mem.read kbsrAddr) = false)
    (hkbq : s.kbq = b :: rest) :
    bridge s = { s with
      kbq := rest
      mem := (s.mem.write kbsrAddr (setReady (s.mem.read kbsrAddr))).write kbdrAddr (zext16 b) } := by
  simp [bridge, hready, hkbq]

theorem bridge_eq_self {s : State} (h : isReady (s.mem.read kbsrAddr) = true ∨ s.kbq = []) : bridge s = s := by
  obtain ⟨hready, b, rest, hkbq, -⟩ | ⟨-, hb⟩ := bridge_cases s
  · simp [hready, hkbq] at h
  · exact hb

/-- What the bridge takes off the queue (R46). -/
theorem bridge_kbq (s : State) : ∃ n, n ≤ 1 ∧ n ≤ s.kbq.length ∧ (bridge s).kbq = s.kbq.drop n ∧
    (n = 1 → isReady (s.mem.read kbsrAddr) = false) := by
  obtain ⟨hready, b, rest, hkbq, hb⟩ | ⟨-, hb⟩ := bridge_cases s
  · exact ⟨1, le_rfl, by simp [hkbq], by simp [hb, hkbq], fun _ => hready⟩
  · exact ⟨0, Nat.zero_le 1, Nat.zero_le _, by simp [hb], by simp⟩

/-! ### Instructions with more than one outcome, an equation per outcome -/

theorem exec_br_taken {n z p : Bool} {s : State} (off : BitVec 9) (h : branchTaken n z p s.cond = true) :
    exec (.br n z p off) s = .next (commit (pcRelative s.pc off) s) :=
  congrArg Host.Outcome.next (if_pos h)

theorem exec_br_not_taken {n z p : Bool} {s : State} (off : BitVec 9) (h : ¬branchTaken n z p s.cond = true) :
    exec (.br n z p off) s = .next (advance s) :=
  congrArg Host.Outcome.next (if_neg h)

theorem exec_getc_nil {s : State} (h : s.kbq = []) : exec .trapGetc s = .next (advance s) := by
  simp [exec, execTrapGetc, queuePop, h]

theorem exec_getc_cons {s : State} {b : Byte} {rest : List Byte} (h : s.kbq = b :: rest) :
    exec .trapGetc s = .next (advance (setReg .r0 (zext16 b) { s with kbq := rest })) := by
  simp [exec, execTrapGetc, queuePop, h]

/-- A PUTS that has a next state ended its loop (R208). -/
theorem execTrapPuts_eq_next {s t : State} (h : execTrapPuts s = .next t) :
    ∃ s', putsLoop putsFuel (putsStart (s.regs.get .r0) s.params) s = some s' ∧ t = advance s' := by
  unfold execTrapPuts at h
  split at h
  · next s' hs' => exact ⟨s', hs', (Host.Outcome.next.inj h).symm⟩
  · cases h

/-! ### The PUTS loop -/

theorem putsLoop_mem_wf {n : Nat} {a : Word} {s t : State} (h : putsLoop n a s = some t) : s.mem.wf → t.mem.wf := by
  obtain ⟨-, -, -, -, -, -, -, -, -, hwf⟩ := putsLoop_frame h
  exact hwf

theorem putsLoop_out {k : Nat} {a : Word} {s t : State} (h : putsLoop k a s = some t) : ∃ cs, t.out = s.out ++ cs := by
  obtain ⟨-, -, -, -, -, -, -, -, hout, -⟩ := putsLoop_frame h
  exact hout

/-- The PUTS loop changes memory and the sink only. -/
theorem putsLoop_eq {n : Nat} {a : Word} {s t : State} (h : putsLoop n a s = some t) :
    ∃ cs, t = { s with mem := t.mem, out := s.out ++ cs } := by
  obtain ⟨hregs, hpc, hcond, hkbq, hcycles, hstatus, hloaded, hparams, ⟨cs, hout⟩, -⟩ := putsLoop_frame h
  refine ⟨cs, ?_⟩
  obtain ⟨regs, pc, cond, mem, kbq, cycles, status, loaded, out, params⟩ := t
  simp only at *
  subst hregs hpc hcond hkbq hcycles hstatus hloaded hparams hout
  rfl

theorem putsLoop_of_zero (k : Nat) {a : Word} {s : State} (h : s.mem.read a = 0#16) :
    putsLoop (k + 1) a s = some (afterRead a s) :=
  if_pos h

theorem putsLoop_of_ne_zero (k : Nat) {a : Word} {s : State} (h : s.mem.read a ≠ 0#16) :
    putsLoop (k + 1) a s = putsLoop k (a + 1#16) (emit (lowByte (s.mem.read a)) (afterRead a s)) :=
  if_neg h

/-! ### What an instruction can do -/

/-- The states an instruction can lead to, by what it does to the state: everything `exec` can answer as a next state. A
memory `m` in them is what the instruction's reads and writes leave; it is canonical if the memory before was. -/
inductive Answers (i : Instr) (s : State) : State → Prop
  /-- ADD, AND, NOT, LD, LDI, LDR, LEA. -/
  | result {dr : Reg} (v : Word) (m : Memory) : resultReg i = some dr → (s.mem.wf → m.wf) →
      Answers i s (advance (setResult dr v { s with mem := m }))
  /-- A BR that is taken. -/
  | branch (n z p : Bool) (off : BitVec 9) : i = .br n z p off → branchTaken n z p s.cond = true →
      Answers i s (commit (pcRelative s.pc off) s)
  /-- JMP. -/
  | jump (base : Reg) : i = .jmp base → Answers i s (commit (s.regs.get base) s)
  /-- JSR and JSRR. -/
  | call (target : Word) : ((∃ off, i = .jsr off) ∨ ∃ base, i = .jsrr base) →
      Answers i s (commit target (setReg linkReg (s.pc + 1#16) s))
  /-- A BR that is not taken, ST, STI, STR, RTI, RES, and GETC with an empty queue. -/
  | goOn (m : Memory) : resultReg i = none → (s.mem.wf → m.wf) → Answers i s (advance { s with mem := m })
  /-- GETC with a byte in the queue. -/
  | getc (b : Byte) (rest : List Byte) : i = .trapGetc → s.kbq = b :: rest →
      Answers i s (advance (setReg .r0 (zext16 b) { s with kbq := rest }))
  /-- OUT and PUTS. -/
  | print (cs : List Byte) (m : Memory) : i = .trapOut ∨ i = .trapPuts → (s.mem.wf → m.wf) →
      Answers i s (advance { s with mem := m, out := s.out ++ cs })
  /-- HALT. -/
  | halt : i = .trapHalt → Answers i s (halt (advance s))
  /-- TRAP with an unrecognised vector. -/
  | fatal (v : Byte) : i = .trapOther v → Answers i s { s with status := .failed (.unimplementedTrap v s.pc) }

theorem afterRead_eq (a : Word) (s : State) : afterRead a s = { s with mem := (afterRead a s).mem } := by
  unfold afterRead; split <;> rfl

/-- A load, after whatever reads left the memory `m`. -/
theorem loadFrom_answers {i : Instr} {dr : Reg} {s : State} {m : Memory} (ea : Word) (hi : resultReg i = some dr)
    (hm : s.mem.wf → m.wf) :
    Answers i s (advance (setResult dr (m.read ea) (afterRead ea { s with mem := m }))) := by
  rw [afterRead_eq]
  exact .result _ _ hi fun h => afterRead_mem_wf (s := { s with mem := m }) ea (hm h)

/-- `exec` answers no other next state: the case split over the instructions that the lemmas on each component cite. -/
theorem exec_answers {i : Instr} {s t : State} (h : exec i s = .next t) : Answers i s t := by
  cases i
  case addReg | addImm | andReg | andImm | notReg | lea =>
    obtain rfl := Host.Outcome.next.inj h
    exact .result _ s.mem rfl id
  case ld dr off | ldr dr base off =>
    obtain rfl := Host.Outcome.next.inj h
    exact loadFrom_answers _ rfl id
  case ldi dr off =>
    obtain rfl := Host.Outcome.next.inj h
    simp only [memRead_fst, memRead_snd]
    rw [afterRead_eq (pcRelative s.pc off) s]
    exact loadFrom_answers _ rfl (afterRead_mem_wf _)
  case st sr off | str sr base off =>
    obtain rfl := Host.Outcome.next.inj h
    exact .goOn (s.mem.write _ _) rfl (Memory.wf_write _ _)
  case sti sr off =>
    obtain rfl := Host.Outcome.next.inj h
    simp only [memRead_fst, memRead_snd]
    rw [afterRead_eq (pcRelative s.pc off) s]
    exact .goOn (Memory.write _ _ _) rfl fun h => Memory.wf_write _ _ (afterRead_mem_wf _ h)
  case rti | res =>
    obtain rfl := Host.Outcome.next.inj h
    exact .goOn s.mem rfl id
  case br n z p off =>
    obtain rfl := Host.Outcome.next.inj h
    split
    · next htaken => exact .branch n z p off rfl htaken
    · exact .goOn s.mem rfl id
  case jmp base =>
    obtain rfl := Host.Outcome.next.inj h
    exact .jump base rfl
  case jsr off =>
    obtain rfl := Host.Outcome.next.inj h
    exact .call _ (.inl ⟨off, rfl⟩)
  case jsrr base =>
    obtain rfl := Host.Outcome.next.inj h
    exact .call _ (.inr ⟨base, rfl⟩)
  case trapGetc =>
    cases hkbq : s.kbq with
    | nil =>
      obtain rfl := Host.Outcome.next.inj ((exec_getc_nil hkbq).symm.trans h)
      exact .goOn s.mem rfl id
    | cons b rest =>
      obtain rfl := Host.Outcome.next.inj ((exec_getc_cons hkbq).symm.trans h)
      exact .getc b rest rfl hkbq
  case trapOut =>
    obtain rfl := Host.Outcome.next.inj h
    exact .print [_] s.mem (.inl rfl) id
  case trapPuts =>
    obtain ⟨s', hloop, rfl⟩ := execTrapPuts_eq_next h
    obtain ⟨cs, heq⟩ := putsLoop_eq hloop
    rw [heq]
    exact .print cs s'.mem (.inr rfl) (putsLoop_mem_wf hloop)
  case trapHalt =>
    obtain rfl := Host.Outcome.next.inj h
    exact .halt rfl
  case trapOther v =>
    obtain rfl := Host.Outcome.next.inj h
    exact .fatal v rfl

/-! ### Each component of the state after an instruction -/

section
variable {i : Instr} {s t : State} (h : exec i s = .next t)
include h

theorem exec_loaded : t.loaded = s.loaded := by
  cases exec_answers h <;> rfl

theorem exec_mem_wf (hwf : s.mem.wf) : t.mem.wf := by
  cases exec_answers h with
  | result _ _ _ hm => exact hm hwf
  | goOn _ _ hm => exact hm hwf
  | print _ _ _ hm => exact hm hwf
  | branch | jump | call | getc | halt | fatal => exact hwf

/-- The flags are those of a value written to the destination, or stay (R40). -/
theorem exec_cond : (∃ dr, resultReg i = some dr ∧ t.cond = condOf (t.regs.get dr)) ∨
    (resultReg i = none ∧ t.cond = s.cond) := by
  cases exec_answers h with
  | result v _ hdr => exact .inl ⟨_, hdr, by simp⟩
  | goOn _ hi => exact .inr ⟨hi, rfl⟩
  | branch _ _ _ _ hi | jump _ hi | getc _ _ hi | halt hi | fatal _ hi => exact .inr ⟨by rw [hi]; rfl, rfl⟩
  | call _ hi => obtain ⟨_, rfl⟩ | ⟨_, rfl⟩ := hi <;> exact .inr ⟨rfl, rfl⟩
  | print _ _ hi => obtain rfl | rfl := hi <;> exact .inr ⟨rfl, rfl⟩

/-- The status of a completed or failed instruction, with `cycles` (R47, R246). -/
theorem exec_status : (t.status = s.status ∧ t.cycles = s.cycles + 1) ∨
    (i = .trapHalt ∧ t.status = .halted ∧ t.cycles = s.cycles + 1) ∨
    (∃ v, i = .trapOther v ∧ t.status = .failed (.unimplementedTrap v s.pc) ∧ t.cycles = s.cycles ∧ t.pc = s.pc) := by
  cases exec_answers h with
  | halt hi => exact .inr (.inl ⟨hi, rfl, rfl⟩)
  | fatal v hi => exact .inr (.inr ⟨v, hi, rfl, rfl, rfl⟩)
  | result | branch | jump | call | goOn | getc | print => exact .inl ⟨rfl, rfl⟩

theorem exec_cycles_le : s.cycles ≤ t.cycles := by
  obtain ⟨-, hc⟩ | ⟨-, -, hc⟩ | ⟨-, -, -, hc, -⟩ := exec_status h <;> omega

/-- Only OUT and PUTS add to the output sink, and nothing takes from it (R49). -/
theorem exec_out : ∃ cs, t.out = s.out ++ cs ∧ (cs ≠ [] → i = .trapOut ∨ i = .trapPuts) := by
  cases exec_answers h with
  | print cs _ hi => exact ⟨cs, rfl, fun _ => hi⟩
  | result | branch | jump | call | goOn | getc | halt | fatal => exact ⟨[], (List.append_nil _).symm, absurd rfl⟩

theorem exec_out_append_drop : s.out ++ t.out.drop s.out.length = t.out := by
  obtain ⟨cs, hout, -⟩ := exec_out h
  simp [hout]

/-- Only GETC takes a byte off the queue, and only the front one (R45). -/
theorem exec_kbq : ∃ n, n ≤ 1 ∧ t.kbq = s.kbq.drop n ∧ (n = 1 → i = .trapGetc) := by
  cases exec_answers h with
  | getc b rest hi hkbq => exact ⟨1, le_rfl, by simp [hkbq], fun _ => hi⟩
  | result | branch | jump | call | goOn | print | halt | fatal => exact ⟨0, Nat.zero_le 1, rfl, by simp⟩

/-- A register that an instruction changes, and what changes it (R32). -/
theorem exec_regs {r : Reg} (hr : t.regs.get r ≠ s.regs.get r) :
    resultReg i = some r ∨ (((∃ off, i = .jsr off) ∨ ∃ base, i = .jsrr base) ∧ r = .r7) ∨
      (i = .trapGetc ∧ r = .r0 ∧ s.kbq ≠ []) := by
  have hset : ∀ {q : Reg} {v : Word}, (s.regs.set q v).get r ≠ s.regs.get r → r = q := fun hne =>
    Classical.byContradiction fun hq => hne (Regs.get_set_other s.regs _ hq)
  cases exec_answers h with
  | result v m hdr => exact .inl (by rw [hset hr]; exact hdr)
  | call target hi => exact .inr (.inl ⟨hi, hset hr⟩)
  | getc b rest hi hkbq => exact .inr (.inr ⟨hi, hset hr, by simp [hkbq]⟩)
  | branch | jump | goOn | print | halt | fatal => exact absurd rfl hr

end

/-! ### What no instruction, or none but BR, reads (R41, R47, R49) -/

/-- A state with other flags, another cycle count and another output sink. -/
def State.withUnread (c : Cond) (n : Nat) (o : List Byte) (s : State) : State := { s with cond := c, cycles := n, out := o }

theorem afterRead_withUnread (a : Word) (c : Cond) (n : Nat) (o : List Byte) (s : State) :
    afterRead a (s.withUnread c n o) = (afterRead a s).withUnread c n o := by
  unfold afterRead; split <;> rfl

/-- The PUTS loop prints the same characters whatever these three fields hold. -/
theorem putsLoop_withUnread {k : Nat} {a : Word} {s t : State} (c : Cond) (n : Nat) (o : List Byte)
    (h : putsLoop k a s = some t) :
    putsLoop k a (s.withUnread c n o) = some (t.withUnread c n (o ++ t.out.drop s.out.length)) := by
  induction k generalizing a s o with
  | zero => cases h
  | succ k ih =>
    by_cases hw : s.mem.read a = 0#16
    · rw [putsLoop_of_zero k hw] at h
      obtain rfl := Option.some.inj h
      rw [putsLoop_of_zero k (by exact hw), afterRead_withUnread]
      simp
    · rw [putsLoop_of_ne_zero k hw] at h
      obtain ⟨cs, hout⟩ := putsLoop_out h
      rw [putsLoop_of_ne_zero k (by exact hw), afterRead_withUnread]
      refine (ih (o ++ [lowByte (s.mem.read a)]) h).trans ?_
      simp [hout]

/-- The fields of an instruction that prints nothing. -/
theorem withUnread_of_silent {s t : State} {d : Nat} (c : Cond) (n : Nat) (o : List Byte) (hcycles : t.cycles = s.cycles + d)
    (hout : t.out = s.out) :
    t.withUnread c (n + (t.cycles - s.cycles)) (o ++ t.out.drop s.out.length) = t.withUnread c (n + d) o := by
  simp [hcycles, hout]

/-- From other flags, another cycle count and another sink, an instruction answers the same state but for what it leaves of
these three: it adds as much to `cycles` and to the sink, and leaves the flags unless it sets them. For BR the flags must be the
same. -/
theorem exec_withUnread {i : Instr} {s t : State} (c : Cond) (n : Nat) (o : List Byte) (h : exec i s = .next t)
    (hc : (∀ n z p off, i ≠ .br n z p off) ∨ c = s.cond) :
    exec i (s.withUnread c n o) = .next (t.withUnread (if resultReg i = none then c else t.cond)
      (n + (t.cycles - s.cycles)) (o ++ t.out.drop s.out.length)) := by
  cases i
  case addReg | addImm | andReg | andImm | notReg | lea | st | str | rti | res | jmp | jsr | jsrr | trapHalt =>
    obtain rfl := Host.Outcome.next.inj h
    rw [withUnread_of_silent (d := 1)] <;> rfl
  case trapOther =>
    obtain rfl := Host.Outcome.next.inj h
    rw [withUnread_of_silent (d := 0)] <;> rfl
  case ld | ldr | ldi | sti =>
    obtain rfl := Host.Outcome.next.inj h
    rw [withUnread_of_silent (d := 1) _ _ _ (by simp) (by simp)]
    simp only [exec, execLd, execLdr, execLdi, execSti, loadFrom, storeTo, memRead_snd, afterRead_withUnread]
    rfl
  case br bn bz bp off =>
    obtain hbr | rfl := hc
    · exact absurd rfl (hbr bn bz bp off)
    · by_cases htaken : branchTaken bn bz bp s.cond = true
      · obtain rfl := Host.Outcome.next.inj ((exec_br_taken off htaken).symm.trans h)
        rw [withUnread_of_silent (d := 1) _ _ _ (by rfl) (by rfl)]
        exact exec_br_taken off htaken
      · obtain rfl := Host.Outcome.next.inj ((exec_br_not_taken off htaken).symm.trans h)
        rw [withUnread_of_silent (d := 1) _ _ _ (by rfl) (by rfl)]
        exact exec_br_not_taken off htaken
  case trapGetc =>
    cases hkbq : s.kbq with
    | nil =>
      obtain rfl := Host.Outcome.next.inj ((exec_getc_nil hkbq).symm.trans h)
      rw [withUnread_of_silent (d := 1) _ _ _ (by rfl) (by rfl)]
      exact exec_getc_nil hkbq
    | cons b rest =>
      obtain rfl := Host.Outcome.next.inj ((exec_getc_cons hkbq).symm.trans h)
      rw [withUnread_of_silent (d := 1) _ _ _ (by rfl) (by rfl)]
      exact exec_getc_cons hkbq
  case trapOut =>
    obtain rfl := Host.Outcome.next.inj h
    simp only [advance_out, emit_out, List.drop_left, advance_cycles, emit_cycles, Nat.add_sub_cancel_left]
    rfl
  case trapPuts =>
    obtain ⟨s', hloop, rfl⟩ := execTrapPuts_eq_next h
    obtain ⟨cs, heq⟩ := putsLoop_eq hloop
    rw [show (advance s').cycles = s.cycles + 1 by rw [heq]; rfl, Nat.add_sub_cancel_left]
    exact execTrapPuts_of_some (putsLoop_withUnread c n o hloop)

/-- With the flags as they are, any instruction, BR included, goes the same way whatever `cycles` and the sink hold. -/
theorem exec_withUnread_cond {i : Instr} {s t : State} (h : exec i s = .next t) (n : Nat) (o : List Byte) :
    exec i (s.withUnread s.cond n o) = .next (t.withUnread t.cond (n + (t.cycles - s.cycles)) (o ++ t.out.drop s.out.length)) := by
  have hcond : (if resultReg i = none then s.cond else t.cond) = t.cond := by
    obtain ⟨dr, hdr, -⟩ | ⟨-, hc⟩ := exec_cond h
    · simp [hdr]
    · rw [hc, ite_self]
  rw [exec_withUnread s.cond n o h (.inr rfl), hcond]

/-! ### The step of a ready Machine -/

theorem step_of_ready {s : State} (hl : s.loaded = true) (hs : s.status = .ready) :
    step s = exec (nextInstr s) (handlerState s) := by
  obtain ⟨-, -, hstep⟩ | ⟨hno, -⟩ := step_cases s
  · exact hstep
  · simp [hl, hs] at hno

theorem nextInstr_eq (s : State) : nextInstr s = decode ((bridge s).mem.read s.pc) := by
  simp [nextInstr]

section
variable (s : State)

@[simp] theorem handlerState_regs : (handlerState s).regs = s.regs := by simp [handlerState]
@[simp] theorem handlerState_pc : (handlerState s).pc = s.pc := by simp [handlerState]
@[simp] theorem handlerState_cond : (handlerState s).cond = s.cond := by simp [handlerState]
@[simp] theorem handlerState_kbq : (handlerState s).kbq = (bridge s).kbq := by simp [handlerState]
@[simp] theorem handlerState_cycles : (handlerState s).cycles = s.cycles := by simp [handlerState]
@[simp] theorem handlerState_status : (handlerState s).status = s.status := by simp [handlerState]
@[simp] theorem handlerState_out : (handlerState s).out = s.out := by simp [handlerState]

end

/-- A step changes the flags only by an instruction that sets them. -/
theorem step_cond {s t : State} (h : step s = .next t) :
    (resultReg (nextInstr s) ≠ none ∧ ∃ v, t.cond = condOf v) ∨ t.cond = s.cond := by
  obtain ⟨-, -, hstep⟩ | ⟨-, hstep⟩ := step_cases s <;> rw [hstep] at h
  · obtain ⟨dr, hdr, hcond⟩ | ⟨-, hcond⟩ := exec_cond h
    · exact .inl ⟨by simp [hdr], _, hcond⟩
    · exact .inr (by simpa using hcond)
  · exact .inr (Host.Outcome.next.inj h ▸ rfl)

/-- What a step takes off the queue, bytes injected inside it included: one byte by the bridge, one by GETC. -/
theorem cycle_kbq {mid : List Byte} {s t : State} (h : cycle mid s = .next t) :
    ∃ n, n ≤ 2 ∧ t.kbq = (s.kbq ++ mid).drop n ∧
      (n = 2 → isReady (s.mem.read kbsrAddr) = false ∧ nextInstr s = .trapGetc) := by
  obtain ⟨-, -, hcycle⟩ | ⟨-, hcycle⟩ := cycle_cases mid s <;> rw [hcycle] at h
  · obtain ⟨m, hm, hlen, hbridge, hready⟩ := bridge_kbq s
    obtain ⟨n, hn, hexec, hgetc⟩ := exec_kbq h
    refine ⟨m + n, by omega, ?_, fun htwo => ⟨hready (by omega), hgetc (by omega)⟩⟩
    rw [hexec, afterFetch_eq, afterRead_kbq, injectBytes_kbq, hbridge, ← List.drop_append_of_le_length hlen,
      List.drop_drop]
  · exact ⟨0, Nat.zero_le 2, Host.Outcome.next.inj h ▸ rfl, by simp⟩

/-! ### The statements about one component of the state -/

/-- Settles O48, by what the instruction can do: only a taken BR, JMP and the calls name a target of their own. -/
theorem nextProgramCounterDefault : Obligations.NextProgramCounterDefault := by
  intro i s t h
  refine ⟨?_, ?_⟩
  · rintro v rfl
    obtain rfl := Host.Outcome.next.inj h
    rfl
  · cases exec_answers h with
    | result | goOn | getc | print | halt => exact .inl (toNat_add_one s.pc)
    | branch n z p off hi htaken =>
      refine .inr (.inl ⟨n, z, p, off, hi, ?_⟩)
      simpa [branchTaken, or_assoc] using htaken
    | jump base hi => exact .inr (.inr (.inl ⟨base, hi⟩))
    | call _ hi => exact .inr (.inr (.inr (hi.elim .inl fun hr => .inr (.inl hr))))
    | fatal v hi => exact .inr (.inr (.inr (.inr (.inr ⟨v, hi⟩))))

/-- Settles O49: what `exec_regs` says of the handler of the step. -/
theorem registerWriters : Obligations.RegisterWriters := by
  intro s t r h hr
  obtain ⟨-, -, hstep⟩ | ⟨-, hstep⟩ := step_cases s <;> rw [hstep] at h
  · simpa using exec_regs h (by simpa using hr)
  · obtain rfl := Host.Outcome.next.inj h
    exact absurd rfl hr

/-- Settles O50: the flags after an instruction are `condOf` of its result, or as before. -/
theorem flagSetters : Obligations.FlagSetters := by
  intro i s t h
  obtain ⟨dr, hdr, hcond⟩ | ⟨hi, hcond⟩ := exec_cond h
  · refine ⟨fun dr' hdr' => ?_, fun hnone => by simp [hdr] at hnone⟩
    obtain rfl := Option.some.inj (hdr.symm.trans hdr')
    rw [hcond]
    exact flagsOf_condOf _
  · exact ⟨fun dr hdr => by simp [hi] at hdr, fun _ => hcond⟩

/-- Settles O51: `exec_withUnread` with `cycles` and the sink as they are. -/
theorem onlyBranchReadsFlags : Obligations.OnlyBranchReadsFlags := by
  refine ⟨fun i s t c hbr h => ?_, fun s => rfl⟩
  have hc := exec_withUnread c s.cycles s.out h (.inl hbr)
  rwa [Nat.add_sub_cancel' (exec_cycles_le h), exec_out_append_drop h] at hc

/-- Settles O52: what sets the flags sets exactly one, and with none set BR asks for none that is. -/
theorem flagsAreOneHotOnceSet : Obligations.FlagsAreOneHotOnceSet := by
  refine ⟨fun s => rfl, fun _ _ _ => rfl, fun i s t dr h hdr => ?_, fun s t h hs => ?_, fun s t h hs hi => ?_,
    fun s n z p off hs => ?_⟩
  · obtain ⟨_, -, hcond⟩ | ⟨hi, -⟩ := exec_cond h
    · exact hcond ▸ condOf_oneHot _
    · simp [hi] at hdr
  · obtain ⟨-, v, hcond⟩ | hcond := step_cond h
    · exact hcond ▸ condOf_oneHot v
    · exact hcond ▸ hs
  · obtain ⟨hset, -⟩ | hcond := step_cond h
    · exact absurd hi hset
    · exact hcond.trans hs
  · exact ⟨_, exec_br_not_taken off (by simp [branchTaken, hs]), rfl⟩

/-- Settles O53, by the ways an instruction can leave the status; that none reads `cycles` is `exec_withUnread_cond`. -/
theorem cyclesCountCompletedSteps : Obligations.CyclesCountCompletedSteps := by
  refine ⟨fun s t hl hs h => ?_, fun s => rfl, fun _ _ _ => rfl, fun i s t n h => ?_⟩
  · rw [step_of_ready hl hs] at h
    obtain ⟨hst, hc⟩ | ⟨-, hst, hc⟩ | ⟨v, -, hst, hc, -⟩ := exec_status h
    · exact .inl ⟨.inl (by simp [hst, hs]), by simpa using hc⟩
    · exact .inl ⟨.inr hst, by simpa using hc⟩
    · exact .inr ⟨_, hst, by simpa using hc⟩
  · have hn := exec_withUnread_cond h n s.out
    rwa [exec_out_append_drop h] at hn

/-- Settles O54, with `exec_out` for the step and `exec_withUnread_cond` for what the core reads. -/
theorem outputIsOnlyAppendedTo : Obligations.OutputIsOnlyAppendedTo := by
  refine ⟨fun s t h => ?_, fun _ _ _ => rfl, fun s => rfl, fun i s t cs o h hout => ?_⟩
  · obtain ⟨-, -, hstep⟩ | ⟨-, hstep⟩ := step_cases s <;> rw [hstep] at h
    · simpa using exec_out h
    · obtain rfl := Host.Outcome.next.inj h
      exact ⟨[], (List.append_nil _).symm, absurd rfl⟩
  · have ho := exec_withUnread_cond h s.cycles o
    rwa [Nat.add_sub_cancel' (exec_cycles_le h), hout, List.drop_left] at ho

/-- Settles O37, by the two cases of the bridge. -/
theorem bridgeDeliversOneByte : Obligations.BridgeDeliversOneByte := by
  refine ⟨fun s b rest hready hkbq => ?_, fun s hs => ?_, fun s hl hs => ?_⟩
  · have hkbsr : ∀ v w : Word, ((s.mem.write kbsrAddr v).write kbdrAddr w).read kbsrAddr = v := fun v w => by
      rw [Memory.read_write_other _ _ (by decide), Memory.read_write_same]
    refine ⟨_, bridge_of_cons ((isReady_eq_getLsbD _).trans hready) hkbq, rfl, ?_, fun k hk => ?_, ?_, fun a ha ha' => ?_,
      rfl, rfl, rfl, rfl, rfl, rfl, rfl, rfl⟩
    · exact (congrArg (·.getLsbD 15) (hkbsr _ _)).trans ((isReady_eq_getLsbD _).symm.trans (isReady_setReady _))
    · exact (congrArg (·.getLsbD k) (hkbsr _ _)).trans (setReady_getLsbD _ hk)
    · exact (congrArg BitVec.toNat (Memory.read_write_same _ _ _)).trans (toNat_zext16 b)
    · exact (Memory.read_write_other _ _ ha').trans (Memory.read_write_other _ _ ha)
  · exact bridge_eq_self (hs.imp_left (isReady_eq_getLsbD _).trans)
  · rw [step_of_ready hl hs, nextInstr_eq]
    simp [handlerState]

/-- Settles O39, by `cycle_kbq`: `step` is `cycle` with nothing injected inside it. -/
theorem queueIsFirstInFirstOut : Obligations.QueueIsFirstInFirstOut := by
  refine ⟨fun s b => rfl, fun s t h => ?_, fun mid s t h => ?_⟩
  · obtain ⟨n, hn, hkbq, htwo⟩ := cycle_kbq h
    refine ⟨n, hn, by simpa using hkbq, fun he => ?_⟩
    obtain ⟨hready, hgetc⟩ := htwo he
    exact ⟨(isReady_eq_getLsbD _).symm.trans hready, hgetc⟩
  · obtain ⟨n, hn, hkbq, -⟩ := cycle_kbq h
    exact ⟨n, hn, hkbq⟩

/-! ### The invariant (R42, R48, R241, R246) -/

/-- Settles O58, clause by clause: memory is empty, nothing is loaded, COND is 000, and Idle is no failure. -/
theorem resetStateMeetsTheInvariant : Obligations.ResetStateMeetsTheInvariant where
  memory := Memory.wf_nil
  idle := ⟨fun _ => rfl, fun _ => rfl⟩
  flags := .inl rfl
  failure _ h := by cases h

theorem machineInv_bridge {s : State} (h : MachineInv s) : MachineInv (bridge s) where
  memory := bridge_mem_wf h.memory
  idle := by simpa using h.idle
  flags := by simpa using h.flags
  failure := by simpa using h.failure

theorem machineInv_afterRead (a : Word) {s : State} (h : MachineInv s) : MachineInv (afterRead a s) where
  memory := afterRead_mem_wf a h.memory
  idle := by simpa using h.idle
  flags := by simpa using h.flags
  failure := by simpa using h.failure

/-- A decoded instruction keeps the invariant of a Ready Machine. -/
theorem machineInv_exec {w : Word} {s t : State} (hinv : MachineInv s) (hs : s.status = .ready)
    (h : exec (decode w) s = .next t) : MachineInv t where
  memory := exec_mem_wf h hinv.memory
  idle := by
    have hl : s.loaded ≠ false := fun hl => by simpa [hs] using hinv.idle.mpr hl
    have hidle : t.status ≠ .idle := by
      obtain ⟨hst, -⟩ | ⟨-, hst, -⟩ | ⟨v, -, hst, -⟩ := exec_status h <;> simp [hst, hs]
    simp [hidle, exec_loaded h, hl]
  flags := by
    obtain ⟨_, -, hcond⟩ | ⟨-, hcond⟩ := exec_cond h <;> rw [hcond]
    · exact .inr (condOf_oneHot _)
    · exact hinv.flags
  failure e he := by
    obtain ⟨hst, -⟩ | ⟨-, hst, -⟩ | ⟨v, hdecode, hst, -, hpc⟩ := exec_status h <;> rw [hst] at he
    · simp [hs] at he
    · cases he
    · exact ⟨v, by rw [hpc]; exact (Status.failed.inj he).symm, isServiceVector_of_decode hdecode⟩

/-- A step, with or without bytes injected inside it, keeps the invariant: the bridge, the injection, the fetch and the handler
do, one after the other. -/
theorem machineInv_cycle {mid : List Byte} {s t : State} (hinv : MachineInv s) (h : cycle mid s = .next t) :
    MachineInv t := by
  obtain ⟨-, hs, hcycle⟩ | ⟨-, hcycle⟩ := cycle_cases mid s <;> rw [hcycle] at h
  · have hbridge := machineInv_injectBytes mid (machineInv_bridge hinv)
    exact machineInv_exec (machineInv_afterRead _ hbridge) (by simpa using hs) h
  · exact Host.Outcome.next.inj h ▸ machineInv_injectBytes mid hinv

/-- Settles O59, by `machineInv_cycle`: `step` is `cycle` with nothing injected inside it. -/
theorem stepKeepsTheInvariant : Obligations.StepKeepsTheInvariant :=
  ⟨fun _ _ => machineInv_cycle, fun _ _ _ => machineInv_cycle⟩

end Sys2Proof.Machine

/-! PROOFS of the family 20_memory.md: what determines a memory (R60), what a read does (R66), who sees an injection (R76), and
what changes a cell (R61). -/

namespace Sys2Proof.Machine

/-! ### A canonical memory is its reading (R60) -/

/-- A cell that reads as another word than an unlisted one is listed. -/
theorem Memory.mem_of_read_ne {m : Memory} {a : Word} (h : m.read a ≠ memInitWord) : (a.toNat, m.read a) ∈ m := by
  induction m with
  | nil => exact absurd rfl h
  | cons d rest ih =>
    unfold Memory.read at h ⊢
    split at h
    · next hd => simp [← hd]
    · next hd =>
      rw [if_neg hd]
      exact List.mem_cons_of_mem _ (ih h)

/-- A listed cell of a canonical memory reads as its word. -/
theorem Memory.read_of_mem {m : Memory} {a : Word} {v : Word} (h : m.wf) (hmem : (a.toNat, v) ∈ m) : m.read a = v := by
  obtain ⟨hsorted, -⟩ := h
  induction m with
  | nil => cases hmem
  | cons d rest ih =>
    obtain ⟨hd, hrest⟩ := List.pairwise_cons.mp hsorted
    obtain rfl | hmem := List.mem_cons.mp hmem
    · exact if_pos rfl
    · exact (if_neg (hd _ hmem).ne).trans (ih hmem hrest)

/-- What one canonical memory lists, another that reads alike lists too. -/
theorem Memory.subset_of_read_eq {m m' : Memory} (h : m.wf) (hread : ∀ a, m.read a = m'.read a) : m ⊆ m' := by
  rintro ⟨k, v⟩ hmem
  have ⟨_, hcells⟩ := h
  obtain ⟨hk, hv⟩ := hcells _ hmem
  obtain ⟨a, rfl⟩ : ∃ a : Word, a.toNat = k := ⟨BitVec.ofNat 16 k, Nat.mod_eq_of_lt hk⟩
  have ha : m'.read a = v := (hread a).symm.trans (Memory.read_of_mem h hmem)
  subst ha
  exact Memory.mem_of_read_ne hv

/-- Settles O35: each memory lists what the other lists, and rising addresses leave one order for it. -/
theorem canonicalMemoriesAreEqualWhenTheyReadAlike : Obligations.CanonicalMemoriesAreEqualWhenTheyReadAlike := by
  intro m m' h h' hread
  have hirrefl : Std.Irrefl fun c d : Cell => c.1 < d.1 := ⟨fun c => lt_irrefl c.1⟩
  have hantisymm : Std.Antisymm fun c d : Cell => c.1 < d.1 := ⟨fun _ _ hcd hdc => absurd hdc hcd.not_gt⟩
  have ⟨hsorted, _⟩ := h
  have ⟨hsorted', _⟩ := h'
  exact List.Subset.antisymm_of_pairwise hsorted hsorted' (Memory.subset_of_read_eq h hread)
    (Memory.subset_of_read_eq h' fun a => (hread a).symm)

/-! ### What a read does to memory (R66, R70) -/

theorem readView_self (a : Word) (before : Word → Word) : readView a before a = before a :=
  if_neg fun ⟨ha, ha'⟩ => absurd (ha.symm.trans ha') (by decide)

theorem readView_readView (a : Word) (before : Word → Word) : readView a (readView a before) = readView a before := by
  funext b
  unfold readView
  split <;> simp [BitVec.and_assoc]

theorem afterRead_eq_self {a : Word} (s : State) (h : a ≠ kbdrAddr) : afterRead a s = s :=
  if_neg h

/-- A read changes no cell but KBSR. -/
theorem afterRead_read_other (a : Word) {b : Word} (s : State) (h : b ≠ kbsrAddr) :
    (afterRead a s).mem.read b = s.mem.read b :=
  (afterRead_read a b s).trans (if_neg fun ⟨_, hb⟩ => h hb)

/-- Settles O36, by `afterRead_read`: a read leaves the cell it reads, and a second one clears a bit that is clear. -/
theorem memReadSideEffect : Obligations.MemReadSideEffect := by
  rintro a s v t h
  obtain ⟨rfl, rfl⟩ := Prod.mk.inj h
  have htwice : ∀ b, (afterRead a (afterRead a s)).mem.read b = (afterRead a s).mem.read b := fun b => by
    rw [afterRead_read, funext (afterRead_read a · s), readView_readView]
  exact ⟨rfl, afterRead_eq_self s, fun b => afterRead_read a b s, afterRead_regs s a, afterRead_pc s a, afterRead_cond s a,
    afterRead_kbq s a, afterRead_cycles s a, afterRead_status s a, afterRead_loaded s a, afterRead_out s a,
    afterRead_params s a, (afterRead_read a a s).trans (readView_self a _), htwice⟩

/-! ### Bytes injected inside a step (R76) -/

theorem afterRead_injectBytes (a : Word) (bs : List Byte) (s : State) :
    afterRead a (injectBytes bs s) = injectBytes bs (afterRead a s) := by
  unfold afterRead; split <;> rfl

theorem putsLoop_injectBytes (bs : List Byte) (k : Nat) (a : Word) (s : State) :
    putsLoop k a (injectBytes bs s) = (putsLoop k a s).map (injectBytes bs) := by
  induction k generalizing a s with
  | zero => rfl
  | succ k ih =>
    by_cases hw : s.mem.read a = 0#16
    · rw [putsLoop_of_zero k hw, putsLoop_of_zero k (by exact hw), afterRead_injectBytes]
      rfl
    · rw [putsLoop_of_ne_zero k hw, putsLoop_of_ne_zero k (by exact hw), afterRead_injectBytes]
      exact ih (a + 1#16) (emit (lowByte (s.mem.read a)) (afterRead a s))

/-- The one fault is that of a PUTS whose loop does not end (R246). -/
theorem exec_eq_fault {i : Instr} {s : State} {f : Fault} (h : exec i s = .fault f) :
    i = .trapPuts ∧ putsLoop putsFuel (putsStart (s.regs.get .r0) s.params) s = none := by
  cases i
  case trapPuts =>
    refine ⟨rfl, Option.eq_none_iff_forall_ne_some.mpr fun t ht => ?_⟩
    cases (execTrapPuts_of_some ht).symm.trans h
  case trapGetc =>
    cases hkbq : s.kbq with
    | nil => cases (exec_getc_nil hkbq).symm.trans h
    | cons b rest => cases (exec_getc_cons hkbq).symm.trans h
  all_goals cases h

/-- Only GETC reads the queue: any other instruction leaves bytes at its end where they are and does the same. -/
theorem exec_injectBytes {i : Instr} {s t : State} (bs : List Byte) (hi : i ≠ .trapGetc) (h : exec i s = .next t) :
    exec i (injectBytes bs s) = .next (injectBytes bs t) := by
  cases i
  case addReg | addImm | andReg | andImm | notReg | lea | st | str | rti | res | jmp | jsr | jsrr | trapOut | trapHalt |
      trapOther =>
    obtain rfl := Host.Outcome.next.inj h
    rfl
  case trapGetc => exact absurd rfl hi
  case trapPuts =>
    obtain ⟨s', hloop, rfl⟩ := execTrapPuts_eq_next h
    exact execTrapPuts_of_some (t := injectBytes bs s') (by simp [putsLoop_injectBytes, hloop])
  case br n z p off =>
    by_cases htaken : branchTaken n z p s.cond = true
    · obtain rfl := Host.Outcome.next.inj ((exec_br_taken off htaken).symm.trans h)
      exact exec_br_taken off htaken
    · obtain rfl := Host.Outcome.next.inj ((exec_br_not_taken off htaken).symm.trans h)
      exact exec_br_not_taken off htaken
  case ld | ldr | ldi | sti =>
    obtain rfl := Host.Outcome.next.inj h
    simp only [exec, execLd, execLdr, execLdi, execSti, loadFrom, storeTo, memRead_snd, afterRead_injectBytes]
    rfl

/-- An endless PUTS stays one. -/
theorem exec_injectBytes_fault {i : Instr} {s : State} {f : Fault} (bs : List Byte) (h : exec i s = .fault f) :
    exec i (injectBytes bs s) = .fault f := by
  obtain ⟨rfl, hloop⟩ := exec_eq_fault h
  exact (execTrapPuts_of_none (by simp [putsLoop_injectBytes, hloop])).trans ((execTrapPuts_of_none hloop).symm.trans h)

/-- Bytes injected after the bridge change neither the instruction of a step nor, but for the queue, the state its handler runs
from. -/
theorem cycle_of_ready (mid : List Byte) {s : State} (hl : s.loaded = true) (hs : s.status = .ready) :
    cycle mid s = exec (nextInstr s) (injectBytes mid (handlerState s)) := by
  obtain ⟨-, -, hcycle⟩ | ⟨hno, -⟩ := cycle_cases mid s
  · rw [hcycle, afterFetch_eq, afterRead_injectBytes]
    rfl
  · simp [hl, hs] at hno

theorem cycle_of_not_ready (mid : List Byte) {s : State} (h : s.loaded = false ∨ s.status ≠ .ready) :
    cycle mid s = .next (injectBytes mid s) := by
  obtain ⟨hl, hs, -⟩ | ⟨-, hcycle⟩ := cycle_cases mid s
  · simp [hl, hs] at h
  · exact hcycle

/-- Settles O40, by `exec_injectBytes` in a ready Machine. -/
theorem injectionInsideAStepIsSeenByGetcOnly : Obligations.InjectionInsideAStepIsSeenByGetcOnly := by
  refine ⟨fun mid s => cycle_of_ready mid, fun mid s hi => ?_, fun mid s => cycle_of_not_ready mid⟩
  obtain ⟨hl, hs, hstep⟩ | ⟨hno, hstep⟩ := step_cases s <;> rw [hstep]
  · rw [cycle_of_ready mid hl hs]
    exact ⟨fun t => exec_injectBytes mid hi, fun f => exec_injectBytes_fault mid⟩
  · rw [cycle_of_not_ready mid hno]
    exact ⟨fun t h => by rw [Host.Outcome.next.inj h], fun f h => by cases h⟩

/-! ### What changes a cell (R61, R67, R72) -/

/-- The bridge writes the two device cells only (R46). -/
theorem bridge_read_other {a : Word} (s : State) (hkbsr : a ≠ kbsrAddr) (hkbdr : a ≠ kbdrAddr) :
    (bridge s).mem.read a = s.mem.read a := by
  obtain ⟨-, b, rest, -, hb⟩ | ⟨-, hb⟩ := bridge_cases s <;> rw [hb]
  exact (Memory.read_write_other _ _ hkbdr).trans (Memory.read_write_other _ _ hkbsr)

theorem handlerState_read_other {a : Word} (s : State) (hkbsr : a ≠ kbsrAddr) (hkbdr : a ≠ kbdrAddr) :
    (handlerState s).mem.read a = s.mem.read a :=
  (afterRead_read_other _ _ hkbsr).trans (bridge_read_other s hkbsr hkbdr)

/-- The reads of a PUTS change no cell but KBSR. -/
theorem putsLoop_read_other {k : Nat} {a b : Word} {s t : State} (h : putsLoop k a s = some t) (hb : b ≠ kbsrAddr) :
    t.mem.read b = s.mem.read b := by
  induction k generalizing a s with
  | zero => cases h
  | succ k ih =>
    by_cases hw : s.mem.read a = 0#16
    · obtain rfl := Option.some.inj ((putsLoop_of_zero k hw).symm.trans h)
      exact afterRead_read_other a s hb
    · exact (ih ((putsLoop_of_ne_zero k hw).symm.trans h)).trans (afterRead_read_other a s hb)

/-- An instruction changes no cell but KBSR, by its reads, and the one its store is aimed at. -/
theorem exec_read_other {i : Instr} {s t : State} {a : Word} (h : exec i s = .next t) (hkbsr : a ≠ kbsrAddr)
    (htarget : storeTarget s i ≠ some a) : t.mem.read a = s.mem.read a := by
  cases i
  case addReg | addImm | andReg | andImm | notReg | lea | rti | res | jmp | jsr | jsrr | trapOut | trapHalt | trapOther =>
    obtain rfl := Host.Outcome.next.inj h
    rfl
  case st | str =>
    obtain rfl := Host.Outcome.next.inj h
    exact Memory.read_write_other _ _ fun ha => htarget (congrArg some ha.symm)
  case sti =>
    obtain rfl := Host.Outcome.next.inj h
    exact (Memory.read_write_other _ _ fun ha => htarget (congrArg some ha.symm)).trans (afterRead_read_other _ s hkbsr)
  case ld | ldr =>
    obtain rfl := Host.Outcome.next.inj h
    exact afterRead_read_other _ s hkbsr
  case ldi =>
    obtain rfl := Host.Outcome.next.inj h
    exact (afterRead_read_other _ _ hkbsr).trans (afterRead_read_other _ s hkbsr)
  case trapPuts =>
    obtain ⟨s', hloop, rfl⟩ := execTrapPuts_eq_next h
    rw [advance_mem]
    exact putsLoop_read_other hloop hkbsr
  case br =>
    obtain rfl := Host.Outcome.next.inj h
    split <;> rfl
  case trapGetc =>
    cases hkbq : s.kbq with
    | nil =>
      obtain rfl := Host.Outcome.next.inj ((exec_getc_nil hkbq).symm.trans h)
      rfl
    | cons b rest =>
      obtain rfl := Host.Outcome.next.inj ((exec_getc_cons hkbq).symm.trans h)
      rfl

/-- Settles O55: the bridge and the fetch change the device cells only, then `exec_read_other`. -/
theorem memoryWriters : Obligations.MemoryWriters := by
  intro s t a h hchanged
  by_contra! hother
  obtain ⟨hkbsr, hkbdr, htarget⟩ := hother
  obtain ⟨-, -, hstep⟩ | ⟨-, hstep⟩ := step_cases s <;> rw [hstep] at h
  · exact hchanged ((exec_read_other h hkbsr htarget).trans (handlerState_read_other s hkbsr hkbdr))
  · exact hchanged (by rw [Host.Outcome.next.inj h])

end Sys2Proof.Machine

/-! PROOFS of the family 30_encoding.md: that the encoder and the decoder agree, and which bits of a word the decoder reads.

One fact carries the family (`decode_eq_iff`): a word decodes to a well-formed instruction exactly when it agrees with the
instruction's encoding outside the bits its row ignores. -/

namespace Sys2Proof

/-! ### Words that agree outside the ignored bits (R94) -/

/-- `w` and `w'` differ in no bit but those of `ignored`. -/
def AgreeOutside (ignored w w' : Word) : Prop := (w ^^^ w') &&& ~~~ignored = 0#16

theorem agreeOutside_iff {g w w' : Word} :
    AgreeOutside g w w' ↔ ∀ k < 16, g.getLsbD k = false → w.getLsbD k = w'.getLsbD k := by
  constructor
  · intro h k hk hg
    have hbit := congrArg (BitVec.getLsbD · k) h
    simpa [hk, hg, -BitVec.getLsbD_eq_getElem] using hbit
  · intro h
    refine BitVec.eq_of_getLsbD_eq fun k hk => ?_
    cases hg : g.getLsbD k
    · simp [h k hk hg, -BitVec.getLsbD_eq_getElem]
    · simp [hg, -BitVec.getLsbD_eq_getElem]

namespace AgreeOutside

variable {g w w' w'' : Word}

theorem refl (g w : Word) : AgreeOutside g w w := agreeOutside_iff.mpr fun _ _ _ => rfl

theorem symm (h : AgreeOutside g w w') : AgreeOutside g w' w :=
  agreeOutside_iff.mpr fun k hk hg => (agreeOutside_iff.mp h k hk hg).symm

theorem trans (h : AgreeOutside g w w') (h' : AgreeOutside g w' w'') : AgreeOutside g w w'' :=
  agreeOutside_iff.mpr fun k hk hg => (agreeOutside_iff.mp h k hk hg).trans (agreeOutside_iff.mp h' k hk hg)

theorem getLsbD_eq (h : AgreeOutside g w w') (k : Nat) (hk : k < 16) (hg : g.getLsbD k = false) :
    w'.getLsbD k = w.getLsbD k :=
  (agreeOutside_iff.mp h k hk hg).symm

theorem bits_eq (h : AgreeOutside g w w') (lo len : Nat) (hle : lo + len ≤ 16) (hg : bits g lo len = 0#len) :
    bits w' lo len = bits w lo len := by
  refine BitVec.eq_of_getLsbD_eq fun k hk => ?_
  have hgk : g.getLsbD (lo + k) = false := by
    simpa [getLsbD_bits, hk, -BitVec.getLsbD_eq_getElem] using congrArg (BitVec.getLsbD · k) hg
  rw [getLsbD_bits, getLsbD_bits, h.getLsbD_eq _ (by omega) hgk]

/-- A mask that holds no ignored bit does not tell the words apart. -/
theorem and_eq (h : AgreeOutside g w w') {m : Word} (hm : m &&& g = 0#16) : w &&& m = w' &&& m := by
  refine BitVec.eq_of_getLsbD_eq fun k hk => ?_
  rw [BitVec.getLsbD_and, BitVec.getLsbD_and]
  cases hmk : m.getLsbD k
  · simp
  · have hgk : g.getLsbD k = false := by
      simpa [hmk, -BitVec.getLsbD_eq_getElem] using congrArg (BitVec.getLsbD · k) hm
    rw [h.getLsbD_eq k hk hgk]

end AgreeOutside

/-! ### Fields read back from an encoding -/

theorem bits_or (w w' : Word) (lo len : Nat) : bits (w ||| w') lo len = bits w lo len ||| bits w' lo len := by
  refine BitVec.eq_of_getLsbD_eq fun k _ => ?_
  simp only [getLsbD_bits, BitVec.getLsbD_or, Bool.and_or_distrib_left]

theorem bits_place_same {n : Nat} (lo : Nat) (v : BitVec n) (h : lo + n ≤ 16) : bits (place lo v) lo n = v := by
  refine BitVec.eq_of_getLsbD_eq fun k hk => ?_
  rw [getLsbD_bits, getLsbD_place]
  simp [hk, show lo + k < 16 by omega]

theorem bits_place_disjoint {n : Nat} (lo : Nat) (v : BitVec n) (lo' len : Nat) (h : lo + n ≤ lo' ∨ lo' + len ≤ lo) :
    bits (place lo v) lo' len = 0#len := by
  refine BitVec.eq_of_getLsbD_eq fun k hk => ?_
  rw [getLsbD_bits, getLsbD_place, BitVec.getLsbD_zero]
  rcases h with h | h
  · rw [BitVec.getLsbD_of_ge v _ (by omega), Bool.and_false, Bool.and_false]
  · simp [show lo' + k < lo by omega]

theorem bits_one (w : Word) (lo : Nat) : bits w lo 1 = BitVec.ofBool (w.getLsbD lo) := by
  refine BitVec.eq_of_getLsbD_eq fun k hk => ?_
  obtain rfl : k = 0 := by omega
  rw [getLsbD_bits]
  simp [-BitVec.getLsbD_eq_getElem]

theorem bits_opcode (w : Word) : bits w 12 4 =
    BitVec.ofBool (w.getLsbD 15) ++ BitVec.ofBool (w.getLsbD 14) ++ BitVec.ofBool (w.getLsbD 13) ++
      BitVec.ofBool (w.getLsbD 12) := by
  refine BitVec.eq_of_getLsbD_eq fun k hk => ?_
  rw [getLsbD_bits, BitVec.getLsbD_append (n := 3), BitVec.getLsbD_append (n := 2), BitVec.getLsbD_append (n := 1)]
  interval_cases k <;> simp [-BitVec.getLsbD_eq_getElem]

/-! ### The fields of each instruction (R91) -/

/-- The fields of an instruction's word, each as its lowest bit and its width: the opcode, the bit that picks the form (R96),
and the operands. -/
def Instr.fields : Instr → List (Nat × Nat)
  | .br .. => [(12, 4), (11, 1), (10, 1), (9, 1), (0, 9)]
  | .addReg .. | .andReg .. => [(12, 4), (9, 3), (6, 3), (5, 1), (0, 3)]
  | .addImm .. | .andImm .. => [(12, 4), (9, 3), (6, 3), (5, 1), (0, 5)]
  | .ld .. | .st .. | .ldi .. | .sti .. | .lea .. => [(12, 4), (9, 3), (0, 9)]
  | .ldr .. | .str .. => [(12, 4), (9, 3), (6, 3), (0, 6)]
  | .notReg .. => [(12, 4), (9, 3), (6, 3)]
  | .jsr .. => [(12, 4), (11, 1), (0, 11)]
  | .jsrr .. => [(12, 4), (11, 1), (6, 3)]
  | .jmp .. => [(12, 4), (6, 3)]
  | .rti | .res => [(12, 4)]
  | .trapGetc | .trapOut | .trapPuts | .trapHalt | .trapOther .. => [(12, 4), (0, 8)]

/-- A bit that the row does not ignore is in a field. -/
theorem Instr.exists_field_of_not_ignored (i : Instr) :
    ∀ k < 16, i.row.ignored.getLsbD k = false → ∃ f ∈ i.fields, f.1 ≤ k ∧ k < f.1 + f.2 := by
  cases i <;> simp only [Instr.row, Instr.fields] <;> decide

theorem agreeOutside_of_fields {i : Instr} {w w' : Word} (h : ∀ f ∈ i.fields, bits w f.1 f.2 = bits w' f.1 f.2) :
    AgreeOutside i.row.ignored w w' := by
  refine agreeOutside_iff.mpr fun k hk hg => ?_
  obtain ⟨f, hf, hlo, hhi⟩ := i.exists_field_of_not_ignored k hk hg
  have hbit := congrArg (BitVec.getLsbD · (k - f.1)) (h f hf)
  simpa [getLsbD_bits, show k - f.1 < f.2 by omega, Nat.add_sub_cancel' hlo, -BitVec.getLsbD_eq_getElem] using hbit

/-! ### The trap dispatcher (45_trap.md R201) -/

@[simp] theorem decodeTrap_getcVector : decodeTrap Machine.getcVector = .trapGetc := by decide
@[simp] theorem decodeTrap_outVector : decodeTrap Machine.outVector = .trapOut := by decide
@[simp] theorem decodeTrap_putsVector : decodeTrap Machine.putsVector = .trapPuts := by decide
@[simp] theorem decodeTrap_haltVector : decodeTrap Machine.haltVector = .trapHalt := by decide

theorem decodeTrap_of_not_service {v : Byte} (h : isServiceVector v = false) : decodeTrap v = .trapOther v := by
  simp only [isServiceVector, Bool.or_eq_false_iff, beq_eq_false_iff_ne] at h
  obtain ⟨⟨⟨hgetc, hout⟩, hputs⟩, hhalt⟩ := h
  simp [decodeTrap, hgetc, hout, hputs, hhalt]

theorem encode_decodeTrap (v : Byte) : encode (decodeTrap v) = placeOp 0xF#4 ||| place 0 v := by
  unfold decodeTrap
  split_ifs with hgetc hout hputs hhalt <;> simp only [encode, *]

theorem fields_decodeTrap (v : Byte) : (decodeTrap v).fields = [(12, 4), (0, 8)] := by
  unfold decodeTrap
  split_ifs <;> rfl

/-! ### What a word decodes to -/

theorem decode_wellFormed (w : Word) : (decode w).wellFormed = true := by
  cases h : decode w
  case trapOther v => simp [Instr.wellFormed, isServiceVector_of_decode h]
  all_goals rfl

/-- The decoder reads no ignored bit, and in every other it finds what the encoder put there. -/
theorem decode_of_agreeOutside_encode {i : Instr} {w : Word} (hwf : i.wellFormed = true)
    (h : AgreeOutside i.row.ignored (encode i) w) : decode w = i := by
  cases i <;> simp only [Instr.row] at h
  case trapOther v =>
    have hv : isServiceVector v = false := by simpa [Instr.wellFormed] using hwf
    simp (disch := decide) [decode, h.getLsbD_eq, h.bits_eq, encode, placeOp, getLsbD_place, bits_or, bits_place_same,
      bits_place_disjoint, decodeTrap_of_not_service hv, -BitVec.getLsbD_eq_getElem]
  all_goals
    simp (disch := decide) [decode, regAt, h.getLsbD_eq, h.bits_eq, encode, placeOp, placeReg, placeBit, getLsbD_place,
      bits_or, bits_place_same, bits_place_disjoint, -BitVec.getLsbD_eq_getElem]

/-- The encoder puts every field of a word back where the decoder found it. -/
theorem agreeOutside_encode_decode (w : Word) : AgreeOutside (decode w).row.ignored (encode (decode w)) w := by
  refine agreeOutside_of_fields ?_
  fun_cases decode w
  case case19 => -- the trap dispatcher
    simp (disch := decide) [*, encode_decodeTrap, fields_decodeTrap, placeOp, bits_or, bits_place_same,
      bits_place_disjoint, bits_opcode w, -BitVec.getLsbD_eq_getElem]
  all_goals
    simp (disch := decide) [*, Instr.fields, encode, placeOp, placeReg, placeBit, regAt, bits_or, bits_place_same,
      bits_place_disjoint, bits_opcode w, bits_one w, -BitVec.getLsbD_eq_getElem]

/-- The words of an instruction are those that agree with its encoding outside the bits its row ignores. -/
theorem decode_eq_iff {i : Instr} {w : Word} :
    decode w = i ↔ i.wellFormed = true ∧ AgreeOutside i.row.ignored (encode i) w := by
  constructor
  · rintro rfl
    exact ⟨decode_wellFormed w, agreeOutside_encode_decode w⟩
  · rintro ⟨hwf, h⟩
    exact decode_of_agreeOutside_encode hwf h

/-- Settles O24: the encoding agrees with itself. -/
theorem decodeOfEncodeIsIdentity : Obligations.DecodeOfEncodeIsIdentity :=
  fun _ hwf => decode_eq_iff.mpr ⟨hwf, .refl _ _⟩

/-- Settles O26: both words are compared with the encoding of what the first decodes to. -/
theorem wordsDifferingInIgnoredBitsDecodeAlike : Obligations.WordsDifferingInIgnoredBitsDecodeAlike := by
  intro w w'
  change decode w' = decode w ↔ AgreeOutside (decode w).row.ignored w w'
  have hw := agreeOutside_encode_decode w
  rw [decode_eq_iff]
  exact ⟨fun ⟨_, hw'⟩ => hw.symm.trans hw', fun h => ⟨decode_wellFormed w, hw.trans h⟩⟩

/-! ### The opcode table (R95 to R97) -/

/-- The rows of the table that do not depend on the rows before them: all but the last. -/
def specificRows : List OpcodeRow := opcodeTable.dropLast

theorem opcodeTable_eq : opcodeTable = specificRows ++ [(Instr.trapOther 0#8).row] := rfl

theorem Instr.row_mem_opcodeTable (i : Instr) : i.row ∈ opcodeTable := by
  cases i <;> simp [opcodeTable, Instr.row]

theorem Instr.mask_and_ignored (i : Instr) : i.row.mask &&& i.row.ignored = 0#16 := by
  cases i <;> simp only [Instr.row] <;> decide

theorem matchesWord_encode (i : Instr) : i.row.matchesWord (encode i) = true := by
  cases i
  open Laws.RowOfWord in
  exacts [br .., addReg .., addImm .., ld .., st .., jsr .., jsrr .., andReg .., andImm .., ldr .., str .., rti, notReg ..,
    ldi .., sti .., jmp .., res, lea .., trapGetc, trapOut, trapPuts, trapHalt, trapOther ..]

theorem OpcodeRow.matchesWord_iff {r : OpcodeRow} {w : Word} : r.matchesWord w = true ↔ w &&& r.mask = r.pattern :=
  beq_iff_eq

/-- The word has the fixed bits of its encoding, which are those of the row. -/
theorem matchesWord_decode (w : Word) : (decode w).row.matchesWord w = true := by
  have hmask := (agreeOutside_encode_decode w).and_eq (decode w).mask_and_ignored
  rw [OpcodeRow.matchesWord_iff, ← hmask]
  exact OpcodeRow.matchesWord_iff.mp (matchesWord_encode (decode w))

theorem OpcodeRow.agreeOutside_of_matchesWord {r : OpcodeRow} {w : Word} (h : r.matchesWord w = true) :
    AgreeOutside (~~~r.mask) r.pattern w := by
  refine agreeOutside_iff.mpr fun k hk hg => ?_
  have hmask : r.mask.getLsbD k = true := by simpa [hk, -BitVec.getLsbD_eq_getElem] using hg
  rw [← OpcodeRow.matchesWord_iff.mp h, BitVec.getLsbD_and, hmask, Bool.and_true]

/-- The fixed bits of a row that is not the last determine what the word decodes to, but for its operands. -/
theorem row_decode_of_matchesWord {r : OpcodeRow} {w : Word} (hr : r ∈ specificRows) (h : r.matchesWord w = true) :
    (decode w).row = r := by
  have hfixed := OpcodeRow.agreeOutside_of_matchesWord h
  fin_cases hr <;> simp only [Instr.row] at hfixed <;>
    simp (disch := decide) [decode, hfixed.getLsbD_eq, hfixed.bits_eq, Instr.row, -BitVec.getLsbD_eq_getElem]
  -- Left are the rows of the four services, where the dispatcher runs on the row's own vector.
  all_goals rfl

/-- Settles O25: a row before the last that matches is the word's own row; when there is none, the word's row is the last. -/
theorem everyWordDecodesToItsTableRow : Obligations.EveryWordDecodesToItsTableRow := by
  refine fun w => ⟨decode_wellFormed w, ?_⟩
  have hmatch := matchesWord_decode w
  rw [opcodeTable_eq, List.find?_append]
  cases hfind : specificRows.find? fun r => r.matchesWord w with
  | some r =>
    have hr : r.matchesWord w = true := by simpa using List.find?_some hfind
    rw [row_decode_of_matchesWord (List.mem_of_find?_eq_some hfind) hr, Option.some_or]
  | none =>
    have hlast : (decode w).row = (Instr.trapOther 0#8).row := by
      have hmem := (decode w).row_mem_opcodeTable
      rw [opcodeTable_eq, List.mem_append, List.mem_singleton] at hmem
      exact hmem.resolve_left fun hspecific => List.find?_eq_none.mp hfind _ hspecific hmatch
    rw [hlast] at hmatch ⊢
    simp [hmatch]

/-- Settles O27, by running the decoder. -/
theorem sampleWordsDecode : Obligations.SampleWordsDecode := by
  unfold Obligations.SampleWordsDecode
  decide

end Sys2Proof

/-! PROOFS of the family 40_branch.md: which words are a BR, when it is taken, and its frame. -/

namespace Sys2Proof

/-- The four bits the decoder selects the handler by are those of the opcode (R95). -/
theorem getLsbD_of_opcode {w : Word} {op : BitVec 4} (h : w.extractLsb' 12 4 = op) {k : Nat} (hk : k < 4) :
    w.getLsbD (12 + k) = op.getLsbD k := by
  rw [← h, BitVec.getLsbD_extractLsb', decide_eq_true hk, Bool.true_and]

theorem decode_of_opcode_zero {w : Word} (h : w.extractLsb' 12 4 = 0x0#4) :
    decode w = .br (w.getLsbD 11) (w.getLsbD 10) (w.getLsbD 9) (w.extractLsb' 0 9) := by
  have hop : ∀ k < 4, w.getLsbD (12 + k) = false := fun k hk => (getLsbD_of_opcode h hk).trans BitVec.getLsbD_zero
  simp only [decode, bits, hop 0 (by decide), hop 1 (by decide), hop 2 (by decide), hop 3 (by decide)]

end Sys2Proof

namespace Sys2Proof.Machine

theorem branchTaken_iff {n z p : Bool} {c : Cond} : branchTaken n z p c = true ↔
    (n = true ∧ c.n = true) ∨ (z = true ∧ c.z = true) ∨ (p = true ∧ c.p = true) := by
  simp [branchTaken, or_assoc]

/-! ### What a commit leaves unchanged (R255 steps 8 and 9) -/

theorem completes_commit (npc : Word) (s : State) : Completes s (commit npc s) :=
  ⟨rfl, rfl, rfl, rfl, rfl, rfl⟩

theorem writesNoRegister_commit (npc : Word) (s : State) : WritesNoRegister s (commit npc s) :=
  ⟨fun _ => rfl, rfl, completes_commit npc s⟩

theorem sameMemory_commit (npc : Word) (s : State) : SameMemory s (commit npc s) :=
  fun _ => rfl

/-- Settles O6: taken or not, BR is a commit alone, and its condition chooses the PC. -/
theorem branchOnRequestedFlags : Obligations.BranchOnRequestedFlags := by
  refine ⟨fun w => decode_of_opcode_zero, fun n z p off s => ?_⟩
  rw [← branchTaken_iff]
  by_cases htaken : branchTaken n z p s.cond = true
  · exact ⟨_, exec_br_taken off htaken, fun _ => rfl, fun hnot => absurd htaken hnot,
      writesNoRegister_commit _ s, sameMemory_commit _ s⟩
  · exact ⟨_, exec_br_not_taken off htaken, fun h => absurd h htaken, fun _ => rfl,
      writesNoRegister_commit _ s, sameMemory_commit _ s⟩

end Sys2Proof.Machine

/-! PROOFS of the family 41_operate.md: which words are an ADD, an AND or a NOT, what each leaves in DR, and their frame. -/

namespace Sys2Proof

/-! ### The operate words and their register fields (R91, R95, R96) -/

theorem toBits_regAt (w : Word) (lo : Nat) : (regAt w lo).toBits = w.extractLsb' lo 3 :=
  Reg.toBits_ofBits _

section
variable {w : Word}

/-- The four bits the decoder matches on, all at once. -/
theorem selector_of_opcode {op : BitVec 4} (h : w.extractLsb' 12 4 = op) :
    w.getLsbD 15 = op.getLsbD 3 ∧ w.getLsbD 14 = op.getLsbD 2 ∧ w.getLsbD 13 = op.getLsbD 1 ∧ w.getLsbD 12 = op.getLsbD 0 :=
  have hbit (k : Nat) (hk : k < 4) : w.getLsbD (12 + k) = op.getLsbD k := getLsbD_of_opcode h hk
  ⟨hbit 3 (by decide), hbit 2 (by decide), hbit 1 (by decide), hbit 0 (by decide)⟩

theorem decode_of_opcode_one (h : w.extractLsb' 12 4 = 0x1#4) : decode w =
    if w.getLsbD 5 then .addImm (regAt w 9) (regAt w 6) (bits w 0 5) else .addReg (regAt w 9) (regAt w 6) (regAt w 0) := by
  simp [decode, selector_of_opcode h, -BitVec.getLsbD_eq_getElem]

theorem decode_of_opcode_five (h : w.extractLsb' 12 4 = 0x5#4) : decode w =
    if w.getLsbD 5 then .andImm (regAt w 9) (regAt w 6) (bits w 0 5) else .andReg (regAt w 9) (regAt w 6) (regAt w 0) := by
  simp [decode, selector_of_opcode h, -BitVec.getLsbD_eq_getElem]

theorem decode_of_opcode_nine (h : w.extractLsb' 12 4 = 0x9#4) : decode w = .notReg (regAt w 9) (regAt w 6) := by
  simp [decode, selector_of_opcode h, -BitVec.getLsbD_eq_getElem]

end

end Sys2Proof

namespace Sys2Proof.Machine

/-! ### A result in DR, its flags, and the frame (R255 steps 7 to 9) -/

theorem writesResult_advance_setResult (dr : Reg) (v : Word) (s : State) :
    WritesResult dr s (advance (setResult dr v s)) where
  flags := by simpa using flagsOf_condOf v
  others _ hr := Regs.get_set_other s.regs v hr
  pc := rfl
  completes := ⟨rfl, rfl, rfl, rfl, rfl, rfl⟩

/-- Everything `operate` does. -/
theorem operate_next (dr : Reg) (v : Word) (s : State) :
    ∃ t, operate dr v s = .next t ∧ t.regs.get dr = v ∧ WritesResult dr s t ∧ SameMemory s t :=
  ⟨_, rfl, Regs.get_set_same .., writesResult_advance_setResult dr v s, fun _ => rfl⟩

/-! ### The signed immediate (R131, R134) -/

theorem toInt_sext16 {n : Nat} (v : BitVec n) (h : n ≤ 16) : (sext16 v).toInt = v.toInt :=
  BitVec.toInt_signExtend_of_le h

/-- The top bit of a field stands for every bit above it. -/
theorem getLsbD_sext16 {n : Nat} (v : BitVec (n + 1)) {k : Nat} (hk : k < 16) :
    (sext16 v).getLsbD k = v.getLsbD (min k n) := by
  rw [sext16, BitVec.getLsbD_signExtend, BitVec.msb_eq_getLsbD_last, Nat.add_sub_cancel]
  by_cases hle : k ≤ n
  · simp [hk, hle, Nat.lt_succ_of_le hle]
  · simp [hk, hle, Nat.le_of_not_le hle]

/-! ### The five forms -/

/-- Settles O1: `operate` with the sum of the sources. -/
theorem addRegisterForm : Obligations.AddRegisterForm := by
  refine ⟨fun w hop hform => ⟨regAt w 9, regAt w 6, regAt w 0, ?_, toBits_regAt w 9, toBits_regAt w 6, toBits_regAt w 0⟩,
    fun dr sr1 sr2 s => ?_⟩
  · rw [decode_of_opcode_one hop, hform]
    rfl
  · obtain ⟨t, hexec, hdr, hframe⟩ := operate_next dr (s.regs.get sr1 + s.regs.get sr2) s
    refine ⟨t, hexec, ?_, hframe⟩
    rw [hdr, BitVec.toNat_add]

/-- Settles O2: `operate` with the sum of the source and the immediate, which keeps its signed value at 16 bits. -/
theorem addImmediateForm : Obligations.AddImmediateForm := by
  refine ⟨fun w hop hform => ⟨regAt w 9, regAt w 6, ?_, toBits_regAt w 9, toBits_regAt w 6⟩, fun dr sr1 imm5 s => ?_⟩
  · rw [decode_of_opcode_one hop, hform]
    rfl
  · obtain ⟨t, hexec, hdr, hframe⟩ := operate_next dr (s.regs.get sr1 + sext16 imm5) s
    refine ⟨t, hexec, ?_, hframe⟩
    rw [hdr, BitVec.toInt_add, toInt_sext16 imm5 (by decide)]

/-- Settles O3: `operate` with the AND of the sources. -/
theorem andRegisterForm : Obligations.AndRegisterForm := by
  refine ⟨fun w hop hform => ⟨regAt w 9, regAt w 6, regAt w 0, ?_, toBits_regAt w 9, toBits_regAt w 6, toBits_regAt w 0⟩,
    fun dr sr1 sr2 s => ?_⟩
  · rw [decode_of_opcode_five hop, hform]
    rfl
  · obtain ⟨t, hexec, hdr, hframe⟩ := operate_next dr (s.regs.get sr1 &&& s.regs.get sr2) s
    refine ⟨t, hexec, fun k _ => ?_, hframe⟩
    rw [hdr, BitVec.getLsbD_and]

/-- Settles O4: `operate` with the AND of the source and the immediate, whose bits at 16 bits `getLsbD_sext16` gives. -/
theorem andImmediateForm : Obligations.AndImmediateForm := by
  refine ⟨fun w hop hform => ⟨regAt w 9, regAt w 6, ?_, toBits_regAt w 9, toBits_regAt w 6⟩, fun dr sr1 imm5 s => ?_⟩
  · rw [decode_of_opcode_five hop, hform]
    rfl
  · obtain ⟨t, hexec, hdr, hframe⟩ := operate_next dr (s.regs.get sr1 &&& sext16 imm5) s
    refine ⟨t, hexec, fun k hk => ?_, hframe⟩
    rw [hdr, BitVec.getLsbD_and, getLsbD_sext16 imm5 hk]

/-- Settles O5: `operate` with the complement of the source. -/
theorem notComplements : Obligations.NotComplements := by
  refine ⟨fun w hop => ⟨regAt w 9, regAt w 6, decode_of_opcode_nine hop, toBits_regAt w 9, toBits_regAt w 6⟩,
    fun dr sr s => ?_⟩
  obtain ⟨t, hexec, hdr, hframe⟩ := operate_next dr (~~~s.regs.get sr) s
  refine ⟨t, hexec, fun k hk => ?_, hframe⟩
  rw [hdr, BitVec.getLsbD_not, decide_eq_true hk, Bool.true_and]

end Sys2Proof.Machine

/-! PROOFS of the family 42_load.md: which words are a load or LEA, what each leaves in DR, the side effects of its reads, and its
frame. -/

namespace Sys2Proof

/-! ### The load words (R91, R95) -/

section
variable {w : Word}

theorem decode_of_opcode_two (h : w.extractLsb' 12 4 = 0x2#4) : decode w = .ld (regAt w 9) (bits w 0 9) := by
  simp [decode, selector_of_opcode h, -BitVec.getLsbD_eq_getElem]

theorem decode_of_opcode_six (h : w.extractLsb' 12 4 = 0x6#4) : decode w = .ldr (regAt w 9) (regAt w 6) (bits w 0 6) := by
  simp [decode, selector_of_opcode h, -BitVec.getLsbD_eq_getElem]

theorem decode_of_opcode_ten (h : w.extractLsb' 12 4 = 0xA#4) : decode w = .ldi (regAt w 9) (bits w 0 9) := by
  simp [decode, selector_of_opcode h, -BitVec.getLsbD_eq_getElem]

theorem decode_of_opcode_fourteen (h : w.extractLsb' 12 4 = 0xE#4) : decode w = .lea (regAt w 9) (bits w 0 9) := by
  simp [decode, selector_of_opcode h, -BitVec.getLsbD_eq_getElem]

end

end Sys2Proof

namespace Sys2Proof.Machine

/-! ### A read is outside the frame of a result (R66) -/

/-- `afterRead_read` for the whole memory, as the next read sees it (R71). -/
theorem afterRead_mem_read (a : Word) (s : State) : (afterRead a s).mem.read = readView a s.mem.read :=
  funext fun b => afterRead_read a b s

section
variable {a : Word} {s t : State}

theorem Completes.of_afterRead (h : Completes (afterRead a s) t) : Completes s t where
  cycles := by simpa using h.cycles
  kbq := by simpa using h.kbq
  out := by simpa using h.out
  status := by simpa using h.status
  loaded := by simpa using h.loaded
  params := by simpa using h.params

/-- A read before the result changes nothing that the frame speaks of. -/
theorem WritesResult.of_afterRead {dr : Reg} (h : WritesResult dr (afterRead a s) t) : WritesResult dr s t where
  flags := h.flags
  others r hr := by simpa using h.others r hr
  pc := by simpa using h.pc
  completes := h.completes.of_afterRead

end

/-- Everything `loadFrom` does. -/
theorem loadFrom_next (dr : Reg) (ea : Word) (s : State) :
    ∃ t, loadFrom dr ea s = .next t ∧ t.regs.get dr = s.mem.read ea ∧ WritesResult dr s t ∧
      ∀ a, t.mem.read a = readView ea s.mem.read a :=
  ⟨_, rfl, Regs.get_set_same .., (writesResult_advance_setResult dr _ (afterRead ea s)).of_afterRead,
    fun a => afterRead_read ea a s⟩

/-! ### The three loads and LEA -/

/-- Settles O10: `loadFrom` the PC-relative address. -/
theorem loadPcRelative : Obligations.LoadPcRelative :=
  ⟨fun w hop => ⟨regAt w 9, decode_of_opcode_two hop, toBits_regAt w 9⟩,
    fun dr off s => loadFrom_next dr (pcRelative s.pc off) s⟩

/-- Settles O11: `loadFrom` the pointer, in the state the pointer read leaves. -/
theorem loadIndirect : Obligations.LoadIndirect := by
  refine ⟨fun w hop => ⟨regAt w 9, decode_of_opcode_ten hop, toBits_regAt w 9⟩, ?_⟩
  rintro dr off s pa ptr rfl rfl
  obtain ⟨t, hexec, hdr, hframe, hmem⟩ :=
    loadFrom_next dr (s.mem.read (pcRelative s.pc off)) (afterRead (pcRelative s.pc off) s)
  rw [afterRead_mem_read] at hdr hmem
  exact ⟨t, hexec, hdr, hframe.of_afterRead, hmem⟩

/-- Settles O12: `loadFrom` the base-relative address, whose base is the old one. -/
theorem loadBaseOffset : Obligations.LoadBaseOffset :=
  ⟨fun w hop => ⟨regAt w 9, regAt w 6, decode_of_opcode_six hop, toBits_regAt w 9, toBits_regAt w 6⟩,
    fun dr base off s => loadFrom_next dr (baseRelative (s.regs.get base) off) s⟩

/-- Settles O13: LEA is `operate` with the address as its result, so it reads no memory. -/
theorem loadEffectiveAddress : Obligations.LoadEffectiveAddress :=
  ⟨fun w hop => ⟨regAt w 9, decode_of_opcode_fourteen hop, toBits_regAt w 9⟩,
    fun dr off s => operate_next dr (pcRelative s.pc off) s⟩

end Sys2Proof.Machine

/-! PROOFS of the family 43_store.md: which words are a store, what its write leaves in memory, and its frame. -/

namespace Sys2Proof

/-! ### The store words (R91, R95) -/

section
variable {w : Word}

theorem decode_of_opcode_three (h : w.extractLsb' 12 4 = 0x3#4) : decode w = .st (regAt w 9) (bits w 0 9) := by
  simp [decode, selector_of_opcode h, -BitVec.getLsbD_eq_getElem]

theorem decode_of_opcode_seven (h : w.extractLsb' 12 4 = 0x7#4) : decode w = .str (regAt w 9) (regAt w 6) (bits w 0 6) := by
  simp [decode, selector_of_opcode h, -BitVec.getLsbD_eq_getElem]

theorem decode_of_opcode_eleven (h : w.extractLsb' 12 4 = 0xB#4) : decode w = .sti (regAt w 9) (bits w 0 9) := by
  simp [decode, selector_of_opcode h, -BitVec.getLsbD_eq_getElem]

end

end Sys2Proof

namespace Sys2Proof.Machine

/-! ### The write and its frame (R67, R255 steps 7 to 9) -/

/-- A read before the write changes nothing that the frame speaks of. -/
theorem WritesNoRegister.of_afterRead {a : Word} {s t : State} (h : WritesNoRegister (afterRead a s) t) :
    WritesNoRegister s t where
  regs r := by simpa using h.regs r
  cond := by simpa using h.cond
  completes := h.completes.of_afterRead

theorem writesNoRegister_advance_memWrite (ea v : Word) (s : State) : WritesNoRegister s (advance (memWrite ea v s)) where
  regs _ := rfl
  cond := rfl
  completes := ⟨rfl, rfl, rfl, rfl, rfl, rfl⟩

/-- Everything `storeTo` does. -/
theorem storeTo_next (ea v : Word) (s : State) :
    ∃ t, storeTo ea v s = .next t ∧ t.pc = s.pc + 1#16 ∧ WritesNoRegister s t ∧ t.mem.read ea = v ∧
      ∀ a, a ≠ ea → t.mem.read a = s.mem.read a :=
  ⟨_, rfl, rfl, writesNoRegister_advance_memWrite ea v s, Memory.read_write_same .., fun _ => Memory.read_write_other _ v⟩

/-! ### The three stores -/

/-- Settles O14: `storeTo` the PC-relative address. -/
theorem storePcRelative : Obligations.StorePcRelative := by
  refine ⟨fun w hop => ⟨regAt w 9, decode_of_opcode_three hop, toBits_regAt w 9⟩, ?_⟩
  rintro sr off s ea rfl
  exact storeTo_next (pcRelative s.pc off) (s.regs.get sr) s

/-- Settles O15: `storeTo` the pointer, in the state the pointer read leaves. -/
theorem storeIndirect : Obligations.StoreIndirect := by
  refine ⟨fun w hop => ⟨regAt w 9, decode_of_opcode_eleven hop, toBits_regAt w 9⟩, ?_⟩
  rintro sr off s pa ptr rfl rfl
  obtain ⟨t, hexec, hpc, hframe, hcell, hothers⟩ :=
    storeTo_next (s.mem.read (pcRelative s.pc off)) (s.regs.get sr) (afterRead (pcRelative s.pc off) s)
  rw [afterRead_pc] at hpc
  rw [afterRead_mem_read] at hothers
  exact ⟨t, hexec, hpc, hframe.of_afterRead, hcell, hothers⟩

/-- Settles O16: `storeTo` the base-relative address. -/
theorem storeBaseOffset : Obligations.StoreBaseOffset := by
  refine ⟨fun w hop => ⟨regAt w 9, regAt w 6, decode_of_opcode_seven hop, toBits_regAt w 9, toBits_regAt w 6⟩, ?_⟩
  rintro sr base off s ea rfl
  exact storeTo_next (baseRelative (s.regs.get base) off) (s.regs.get sr) s

end Sys2Proof.Machine

/-! PROOFS of the family 44_jump.md: which words are a JMP, a JSR or a JSRR, where each goes, and what it links. -/

namespace Sys2Proof

/-! ### The jump words (R91, R95, R96) -/

section
variable {w : Word}

theorem decode_of_opcode_four (h : w.extractLsb' 12 4 = 0x4#4) :
    decode w = if w.getLsbD 11 then .jsr (bits w 0 11) else .jsrr (regAt w 6) := by
  simp [decode, selector_of_opcode h, -BitVec.getLsbD_eq_getElem]

theorem decode_of_opcode_twelve (h : w.extractLsb' 12 4 = 0xC#4) : decode w = .jmp (regAt w 6) := by
  simp [decode, selector_of_opcode h, -BitVec.getLsbD_eq_getElem]

end

end Sys2Proof

namespace Sys2Proof.Machine

/-- Everything a call does: `target` is computed from the state before the link is written (R36). -/
theorem callTo_next (target : Word) (s : State) :
    ∃ t, callTo target s = .next t ∧ t.regs.get .r7 = s.pc + 1#16 ∧ t.pc = target ∧
      (∀ r, r ≠ .r7 → t.regs.get r = s.regs.get r) ∧ t.cond = s.cond ∧ Completes s t ∧ SameMemory s t :=
  ⟨_, rfl, Regs.get_set_same s.regs linkReg (s.pc + 1#16), rfl,
    fun _ => Regs.get_set_other s.regs (s.pc + 1#16), rfl, ⟨rfl, rfl, rfl, rfl, rfl, rfl⟩, fun _ => rfl⟩

/-! ### JSR, JSRR and JMP -/

/-- Settles O8: a call of the PC-relative address. -/
theorem jumpToSubroutineRelative : Obligations.JumpToSubroutineRelative := by
  refine ⟨fun w hop hmode => ?_, fun off s => callTo_next (pcRelative s.pc off) s⟩
  rw [decode_of_opcode_four hop, if_pos hmode, bits]

/-- Settles O9: a call of what the base register holds before the link. -/
theorem jumpToSubroutineRegister : Obligations.JumpToSubroutineRegister := by
  refine ⟨fun w hop hmode => ⟨regAt w 6, ?_, toBits_regAt w 6⟩, fun base s => callTo_next (s.regs.get base) s⟩
  rw [decode_of_opcode_four hop, if_neg (Bool.eq_false_iff.mp hmode)]

/-- Settles O7: JMP is a commit alone, at the base register. -/
theorem jumpToBaseRegister : Obligations.JumpToBaseRegister :=
  ⟨fun w hop => ⟨regAt w 6, decode_of_opcode_twelve hop, toBits_regAt w 6⟩, by decide,
    fun base s => ⟨commit (s.regs.get base) s, rfl, rfl, writesNoRegister_commit _ s, sameMemory_commit _ s⟩⟩

end Sys2Proof.Machine

/-! PROOFS of the family 45_trap.md: which words are which TRAP, what each service does, that a PUTS completes exactly when its
unbounded loop ends, and which traps end a Machine.

One fact carries PUTS (`putsLoop_putsFuel_iff`): within its bound the model's scan ends where the loop of R208 does. A loop that
ends shows a cell that reads as zero once a read of KBDR has cleared READY (`ZeroAfterKbdr`), and then the scan needs at most the
way to KBDR and one pass over memory after it. -/

namespace Sys2Proof

/-- The TRAP words (R91, R95, R201). -/
theorem decode_of_trap {w : Word} {v : Byte} (hop : w.extractLsb' 12 4 = 0xF#4) (hv : w.extractLsb' 0 8 = v) :
    decode w = decodeTrap v := by
  simp [decode, selector_of_opcode hop, bits, hv, -BitVec.getLsbD_eq_getElem]

end Sys2Proof

namespace Sys2Proof.Machine

/-! ### OUT, HALT and the unrecognised vectors, an equation each -/

theorem exec_trapOut (s : State) : exec .trapOut s = .next (advance (emit (lowByte (s.regs.get .r0)) s)) := rfl

theorem exec_trapHalt (s : State) : exec .trapHalt s = .next (halt (advance s)) := rfl

theorem exec_trapOther (v : Byte) (s : State) :
    exec (.trapOther v) s = .next { s with status := .failed (.unimplementedTrap v s.pc) } := rfl

/-! ### The bounded scan is the loop of R208, if it ends -/

theorem putsEnds_of_putsLoop {k : Nat} {a : Word} {s t : State} (h : putsLoop k a s = some t) : PutsEnds a s t := by
  induction k generalizing a s with
  | zero => cases h
  | succ k ih =>
    by_cases hw : s.mem.read a = 0#16
    · obtain rfl := Option.some.inj ((putsLoop_of_zero k hw).symm.trans h)
      exact .terminator a s hw
    · exact .character a s t hw (ih ((putsLoop_of_ne_zero k hw).symm.trans h))

/-- The loop is deterministic. -/
theorem PutsEnds.unique {a : Word} {s t t' : State} (h : PutsEnds a s t) (h' : PutsEnds a s t') : t = t' := by
  induction h with
  | terminator a s hw =>
    cases h' with
    | terminator => rfl
    | character _ _ _ hne => exact absurd hw hne
  | character a s t hne _ ih =>
    cases h' with
    | terminator _ _ hw => exact absurd hw hne
    | character _ _ _ _ hrest => exact ih hrest

/-! ### When the loop ends -/

theorem readView_of_zero (a : Word) {before : Word → Word} {b : Word} (h : before b = 0#16) : readView a before b = 0#16 := by
  unfold readView
  split <;> simp [h]

/-- After a read of KBDR some cell reads as zero: KBSR when READY is its only bit, or a cell that is zero already. -/
def ZeroAfterKbdr (s : State) : Prop := ∃ b, readView kbdrAddr s.mem.read b = 0#16

/-- No read makes a difference to what KBDR's read will leave. -/
theorem zeroAfterKbdr_afterRead (a : Word) (s : State) : ZeroAfterKbdr (afterRead a s) ↔ ZeroAfterKbdr s := by
  unfold ZeroAfterKbdr
  by_cases ha : a = kbdrAddr
  · rw [ha, afterRead_mem_read, readView_readView]
  · rw [afterRead_eq_self s ha]

/-- The word a loop ends on stays zero, so a loop that ends has one to end on. -/
theorem PutsEnds.zeroAfterKbdr {a : Word} {s t : State} (h : PutsEnds a s t) : ZeroAfterKbdr s := by
  induction h with
  | terminator a s hw => exact ⟨a, readView_of_zero kbdrAddr hw⟩
  | character a s t _ _ ih => exact (zeroAfterKbdr_afterRead a s).mp ih

theorem add_one_add_ofNat (a : Word) (k : Nat) : a + 1#16 + BitVec.ofNat 16 k = a + BitVec.ofNat 16 (k + 1) := by
  rw [Nat.add_comm k, BitVec.ofNat_add, BitVec.add_assoc]

/-- A scan ends at the latest at a zero word ahead of it. -/
theorem putsLoop_of_zero_ahead {k n : Nat} {a : Word} {s : State} (hz : s.mem.read (a + BitVec.ofNat 16 k) = 0#16)
    (hn : k < n) : ∃ t, putsLoop n a s = some t := by
  induction k generalizing n a s with
  | zero =>
    obtain ⟨n, rfl⟩ := Nat.exists_eq_add_of_le' hn
    exact ⟨_, putsLoop_of_zero n (by simpa using hz)⟩
  | succ k ih =>
    obtain ⟨n, rfl⟩ := Nat.exists_eq_add_of_le' (Nat.zero_lt_of_lt hn)
    by_cases hw : s.mem.read a = 0#16
    · exact ⟨_, putsLoop_of_zero n hw⟩
    · rw [putsLoop_of_ne_zero n hw]
      refine ih ?_ (Nat.lt_of_succ_lt_succ hn)
      rw [emit_mem, afterRead_read, add_one_add_ofNat]
      exact readView_of_zero a hz

/-- Every address lies less than 65536 words ahead. -/
theorem exists_add_ofNat (a b : Word) : ∃ k < memorySize, a + BitVec.ofNat 16 k = b :=
  ⟨(b - a).toNat, (b - a).isLt, by rw [BitVec.ofNat_toNat, BitVec.setWidth_eq, BitVec.add_comm, BitVec.sub_add_cancel]⟩

/-- A scan that ends at all ends within one pass over memory after its read of KBDR. -/
theorem putsLoop_of_kbdr_ahead {d n : Nat} {a : Word} {s : State} (hz : ZeroAfterKbdr s)
    (hd : a + BitVec.ofNat 16 d = kbdrAddr) (hn : d + memorySize < n) : ∃ t, putsLoop n a s = some t := by
  induction d generalizing n a s with
  | zero =>
    obtain ⟨n, rfl⟩ := Nat.exists_eq_add_of_le' (Nat.zero_lt_of_lt hn)
    obtain rfl : a = kbdrAddr := by simpa using hd
    by_cases hw : s.mem.read kbdrAddr = 0#16
    · exact ⟨_, putsLoop_of_zero n hw⟩
    · obtain ⟨b, hb⟩ := hz
      obtain ⟨k, hk, rfl⟩ := exists_add_ofNat (kbdrAddr + 1#16) b
      rw [putsLoop_of_ne_zero n hw]
      exact putsLoop_of_zero_ahead ((afterRead_read ..).trans hb) (by omega)
  | succ d ih =>
    obtain ⟨n, rfl⟩ := Nat.exists_eq_add_of_le' (Nat.zero_lt_of_lt hn)
    by_cases hw : s.mem.read a = 0#16
    · exact ⟨_, putsLoop_of_zero n hw⟩
    · rw [putsLoop_of_ne_zero n hw]
      exact ih ((zeroAfterKbdr_afterRead a s).mpr hz) ((add_one_add_ofNat a d).trans hd) (by omega)

/-- The model's bound on the scan loses no loop that ends (log entry 7). -/
theorem putsLoop_putsFuel_iff {a : Word} {s t : State} : putsLoop putsFuel a s = some t ↔ PutsEnds a s t := by
  refine ⟨putsEnds_of_putsLoop, fun h => ?_⟩
  obtain ⟨d, hd, hkbdr⟩ := exists_add_ofNat a kbdrAddr
  obtain ⟨t', ht'⟩ := putsLoop_of_kbdr_ahead (n := putsFuel) h.zeroAfterKbdr hkbdr (by unfold putsFuel; omega)
  rw [ht', (putsEnds_of_putsLoop ht').unique h]

/-! ### PUTS in the spec's terms -/

/-- A PUTS whose loop ends commits what the loop left. -/
theorem exec_trapPuts_of_putsEnds {s t : State} (h : PutsEnds (putsStart (s.regs.get .r0) s.params) s t) :
    exec .trapPuts s = .next { t with pc := s.pc + 1#16, cycles := s.cycles + 1 } := by
  have hloop := putsLoop_putsFuel_iff.mpr h
  obtain ⟨-, hpc, -, -, hcycles, -⟩ := putsLoop_frame hloop
  rw [← hpc, ← hcycles]
  exact execTrapPuts_of_some hloop

/-- A PUTS whose loop has no end has no successor (R246). -/
theorem exec_trapPuts_of_no_end {s : State} (h : ¬∃ t, PutsEnds (putsStart (s.regs.get .r0) s.params) s t) :
    exec .trapPuts s = .fault .putsNeverCompletes :=
  execTrapPuts_of_none (Option.eq_none_iff_forall_ne_some.mpr fun t ht => h ⟨t, putsLoop_putsFuel_iff.mp ht⟩)

theorem lowByte_eq_extractLsb' (w : Word) : lowByte w = w.extractLsb' 0 8 :=
  BitVec.setWidth_eq_extractLsb' (by decide)

/-- The characters of `n` words from an address on. -/
def stringAt (m : Memory) (a : Word) (n : Nat) : List Byte :=
  (List.range n).map fun k => lowByte (m.read (a + BitVec.ofNat 16 k))

theorem stringAt_succ (m : Memory) (a : Word) (n : Nat) :
    stringAt m a (n + 1) = lowByte (m.read a) :: stringAt m (a + 1#16) n := by
  simp [stringAt, List.range_succ_eq_map, add_one_add_ofNat]

/-- The loop on a string that does not reach KBDR: nothing but the sink changes. -/
theorem putsEnds_of_string {n : Nat} {a : Word} {s : State} (hne : ∀ k < n, s.mem.read (a + BitVec.ofNat 16 k) ≠ 0#16)
    (hz : s.mem.read (a + BitVec.ofNat 16 n) = 0#16) (hkbdr : ∀ k ≤ n, a + BitVec.ofNat 16 k ≠ kbdrAddr) :
    PutsEnds a s { s with out := s.out ++ stringAt s.mem a n } := by
  have hread : afterRead a s = s := afterRead_eq_self s (by simpa using hkbdr 0 (Nat.zero_le n))
  induction n generalizing a s with
  | zero =>
    have hend : PutsEnds a s (afterRead a s) := .terminator a s (by simpa using hz)
    rw [hread] at hend
    simpa [stringAt] using hend
  | succ n ih =>
    rw [stringAt_succ]
    refine .character a s _ (by simpa using hne 0 (Nat.succ_pos n)) ?_
    rw [memRead_fst, memRead_snd, hread]
    have hrest := ih (a := a + 1#16) (s := emit (lowByte (s.mem.read a)) s)
      (fun k hk => by rw [add_one_add_ofNat]; exact hne (k + 1) (Nat.succ_lt_succ hk))
      (by rw [add_one_add_ofNat]; exact hz)
      (fun k hk => by rw [add_one_add_ofNat]; exact hkbdr (k + 1) (Nat.succ_le_succ hk))
      (afterRead_eq_self _ (hkbdr 1 (Nat.succ_pos n)))
    simpa [emit] using hrest

/-! ### The statements about traps -/

/-- Settles O17, by what the queue holds. -/
theorem trapGetcTakesOneByte : Obligations.TrapGetcTakesOneByte := by
  refine ⟨fun _ hop hv => (decode_of_trap hop hv).trans decodeTrap_getcVector, fun s => ?_⟩
  cases hkbq : s.kbq with
  | nil =>
    exact ⟨_, exec_getc_nil hkbq, fun _ => ⟨rfl, hkbq⟩, by simp, fun _ _ => rfl, rfl, rfl, rfl, rfl, rfl, rfl, rfl,
      fun _ => rfl⟩
  | cons b rest =>
    refine ⟨_, exec_getc_cons hkbq, by simp, ?_, fun _ => Regs.get_set_other s.regs (zext16 b), rfl, rfl, rfl, rfl, rfl, rfl,
      rfl, fun _ => rfl⟩
    rintro _ _ ⟨rfl, rfl⟩
    exact ⟨by simp [toNat_zext16], rfl⟩

/-- Settles O19, by `putsLoop_putsFuel_iff`, with the frame of the scan. -/
theorem trapPutsCompletesIffItsLoopEnds : Obligations.TrapPutsCompletesIffItsLoopEnds := by
  refine ⟨fun _ hop hv => (decode_of_trap hop hv).trans decodeTrap_putsVector, ?_⟩
  rintro s start rfl
  refine ⟨fun t h => ?_, exec_trapPuts_of_no_end⟩
  have hloop := putsLoop_putsFuel_iff.mpr h
  obtain ⟨hregs, -, hcond, hkbq, -, hstatus, hloaded, hparams, -⟩ := putsLoop_frame hloop
  exact ⟨exec_trapPuts_of_putsEnds h, hregs, hcond, hkbq, hstatus, hloaded, hparams, fun a => putsLoop_read_other hloop⟩

/-- Settles O20: such a string is a loop that ends. -/
theorem trapPutsPrintsString : Obligations.TrapPutsPrintsString := by
  intro s n cell hcell hne hz hkbdr
  obtain rfl := funext hcell
  rw [exec_trapPuts_of_putsEnds (putsEnds_of_string hne hz hkbdr)]
  simp only [stringAt, lowByte_eq_extractLsb', putsStart]

/-- Settles O47: HALT and an unrecognised vector lead where their equations say, any other instruction back to Ready. -/
theorem onlyTrapsEndAMachine : Obligations.OnlyTrapsEndAMachine := by
  intro s t hl hs h
  rw [step_of_ready hl hs] at h
  obtain ⟨hstatus, -⟩ | ⟨hi, hstatus, -⟩ | ⟨v, hi, hstatus, -⟩ := exec_status h
  · have hready : t.status = .ready := by rw [hstatus, handlerState_status, hs]
    refine .inl ⟨hready, fun hi => ?_, fun v hi => ?_⟩
    · rw [hi, exec_trapHalt] at h
      simp [← Host.Outcome.next.inj h] at hready
    · rw [hi, exec_trapOther] at h
      simp [← Host.Outcome.next.inj h] at hready
  · exact .inr (.inl ⟨hstatus, hi⟩)
  · exact .inr (.inr ⟨v, by rw [hstatus, handlerState_pc], hi⟩)

/-- Settles O18, by OUT's equation. -/
theorem trapOutEmitsLowByte : Obligations.TrapOutEmitsLowByte :=
  ⟨fun _ hop hv => (decode_of_trap hop hv).trans decodeTrap_outVector, fun s =>
    ⟨_, lowByte (s.regs.get .r0), exec_trapOut s, rfl, BitVec.toNat_setWidth .., fun _ => rfl, rfl, rfl, rfl, rfl, rfl, rfl,
      rfl, fun _ => rfl⟩⟩

/-- Settles O21, by HALT's equation. -/
theorem trapHaltHalts : Obligations.TrapHaltHalts :=
  ⟨fun _ hop hv => (decode_of_trap hop hv).trans decodeTrap_haltVector, fun s => ⟨_, exec_trapHalt s, rfl, rfl⟩⟩

/-- Settles O22: a vector that names no service is read as itself, and raises the error. -/
theorem trapOtherVectorFails : Obligations.TrapOtherVectorFails := by
  refine ⟨fun w v hop hv hgetc hout hputs hhalt => ?_, fun v s => ⟨_, exec_trapOther v s, rfl, rfl⟩⟩
  have hservice : isServiceVector v = false := by
    simp [isServiceVector, getcVector, outVector, putsVector, haltVector, hgetc, hout, hputs, hhalt]
  exact (decode_of_trap hop hv).trans (decodeTrap_of_not_service hservice)

end Sys2Proof.Machine

/-! PROOFS of the family 46_reserved.md: which words are a RES or an RTI, and that each only advances (decision D25). -/

namespace Sys2Proof

/-! ### The reserved words (R91, R95) -/

section
variable {w : Word}

theorem decode_of_opcode_eight (h : w.extractLsb' 12 4 = 0x8#4) : decode w = .rti := by
  simp [decode, selector_of_opcode h, -BitVec.getLsbD_eq_getElem]

theorem decode_of_opcode_thirteen (h : w.extractLsb' 12 4 = 0xD#4) : decode w = .res := by
  simp [decode, selector_of_opcode h, -BitVec.getLsbD_eq_getElem]

end

end Sys2Proof

namespace Sys2Proof.Machine

theorem exec_res (s : State) : exec .res s = .next (advance s) := rfl

theorem exec_rti (s : State) : exec .rti s = .next (advance s) := rfl

/-- Settles O23: either opcode is the default commit alone. -/
theorem reservedOpcodesAreNoOps : Obligations.ReservedOpcodesAreNoOps :=
  ⟨fun _ => decode_of_opcode_thirteen, fun _ => decode_of_opcode_eight, fun s => ⟨exec_res s, exec_rti s⟩⟩

end Sys2Proof.Machine

/-! PROOFS of the family 60_exceptions.md: what a step runs and what a failing one keeps (R255, R246), that an ended Machine stays
ended (R256), and when `run` returns and with what (R245, R257). -/

namespace Sys2Proof.Machine

/-! ### The handler's state and the step (R255) -/

@[simp] theorem handlerState_params (s : State) : (handlerState s).params = s.params := by simp [handlerState]

@[simp] theorem handlerState_loaded (s : State) : (handlerState s).loaded = s.loaded := by simp [handlerState]

theorem handlerState_read (s : State) (a : Word) :
    (handlerState s).mem.read a = readView s.pc (bridge s).mem.read a := by
  simpa [handlerState] using afterRead_read s.pc a (bridge s)

theorem step_of_not_ready {s : State} (h : s.loaded = false ∨ s.status ≠ .ready) : step s = .next s :=
  (cycle_of_not_ready [] h).trans (by rw [injectBytes_nil])

/-- Every instruction has a next state but a PUTS whose loop has no end (R241, R246). -/
theorem exec_next_or_endless_puts (i : Instr) (s : State) : (∃ t, exec i s = .next t) ∨
    (i = .trapPuts ∧ exec i s = .fault .putsNeverCompletes ∧
      ¬∃ t, PutsEnds (putsStart (s.regs.get .r0) s.params) s t) := by
  cases i
  case trapPuts =>
    by_cases hend : ∃ t, PutsEnds (putsStart (s.regs.get .r0) s.params) s t
    · obtain ⟨t, ht⟩ := hend
      exact .inl ⟨_, exec_trapPuts_of_putsEnds ht⟩
    · exact .inr ⟨rfl, exec_trapPuts_of_no_end hend, hend⟩
  case trapGetc =>
    cases hkbq : s.kbq with
    | nil => exact .inl ⟨_, exec_getc_nil hkbq⟩
    | cons b rest => exact .inl ⟨_, exec_getc_cons hkbq⟩
  all_goals exact .inl ⟨_, rfl⟩

/-! ### What a Machine reports (R245, R255, R256) -/

theorem stepReturn_injectBytes (bs : List Byte) (s : State) : (injectBytes bs s).stepReturn = s.stepReturn := rfl

/-- `step` reports halted = false in Ready only. -/
theorem stepReturn_eq_halted_false_iff {s : State} : s.stepReturn = .halted false ↔ s.status = .ready := by
  unfold State.stepReturn
  cases s.status <;> simp

theorem stepReturn_of_idle {s : State} (h : s.status = .idle) : s.stepReturn = .error .noProgramLoaded := by
  simp [State.stepReturn, h]

theorem honourStop_injectBytes (bs : List Byte) (s : State) :
    honourStop (injectBytes bs s) = injectBytes bs (honourStop s) :=
  (apply_ite (injectBytes bs) (s.status = .ready) { s with status := .stopped } s).symm

theorem honourStop_status_ne_ready (s : State) : (honourStop s).status ≠ .ready := by
  obtain ⟨-, heq⟩ | ⟨hstatus, heq⟩ := honourStop_cases s <;> rw [heq]
  · simp
  · exact hstatus

/-! ### One iteration of `run` (R257), an equation per outcome -/

theorem injectBytes_injectBytes (bs cs : List Byte) (s : State) :
    injectBytes cs (injectBytes bs s) = injectBytes (bs ++ cs) s := by
  simp [injectBytes]

section
variable {i : RunInput} {s : State} (rest : List RunInput)

theorem run_of_not_loaded (hl : s.loaded = false) :
    run (i :: rest) s = .returned (.error .noProgramLoaded) (injectBytes (i.before ++ i.mid) s) := by
  simp [run, hl, injectBytes_injectBytes]

theorem run_of_stop (hl : s.loaded = true) (hstop : i.stop = true) :
    run (i :: rest) s = .returned (honourStop s).stepReturn (honourStop (injectBytes (i.before ++ i.mid) s)) := by
  simp [run, hl, hstop, injectBytes_injectBytes, honourStop_injectBytes, stepReturn_injectBytes]

theorem run_of_next {t : State} (hl : s.loaded = true) (hstop : i.stop = false)
    (h : cycle i.mid (injectBytes i.before s) = .next t) :
    run (i :: rest) s = if t.status = .ready then run rest t else .returned t.stepReturn t := by
  simp [run, hl, hstop, h, stepReturn_eq_halted_false_iff]

theorem run_of_no_next (hl : s.loaded = true) (hstop : i.stop = false)
    (h : ∀ t, cycle i.mid (injectBytes i.before s) ≠ .next t) : run (i :: rest) s = .hung := by
  unfold run
  cases hcycle : cycle i.mid (injectBytes i.before s) with
  | next t => exact absurd hcycle (h t)
  | fault | refused => simp [hl, hstop, hcycle]

end

/-- A `run` from a state that meets the invariant returns in an ended Machine only, and what that state reports. -/
theorem run_eq_returned {inputs : List RunInput} {s t : State} {r : StepReturn} (hinv : MachineInv s)
    (h : run inputs s = .returned r t) : t.status ≠ .ready ∧ r = t.stepReturn := by
  induction inputs generalizing s with
  | nil => cases h
  | cons i rest ih =>
    cases hl : s.loaded with
    | false =>
      have hidle : s.status = .idle := hinv.idle.mpr hl
      obtain ⟨rfl, rfl⟩ := RunResult.returned.inj ((run_of_not_loaded rest hl).symm.trans h)
      exact ⟨by simp [hidle], (stepReturn_of_idle hidle).symm⟩
    | true =>
      cases hstop : i.stop with
      | true =>
        obtain ⟨rfl, rfl⟩ := RunResult.returned.inj ((run_of_stop rest hl hstop).symm.trans h)
        exact ⟨honourStop_status_ne_ready _, by rw [honourStop_injectBytes, stepReturn_injectBytes]⟩
      | false =>
        by_cases hnext : ∃ u, cycle i.mid (injectBytes i.before s) = .next u
        · obtain ⟨u, hu⟩ := hnext
          rw [run_of_next rest hl hstop hu] at h
          split at h
          · exact ih (machineInv_cycle (machineInv_injectBytes i.before hinv) hu) h
          · next hended =>
            obtain ⟨rfl, rfl⟩ := RunResult.returned.inj h
            exact ⟨hended, rfl⟩
        · cases (run_of_no_next rest hl hstop (not_exists.mp hnext)).symm.trans h

/-! ### The statements about the step -/

/-- Settles O43: the error and the endless PUTS by their equations, in the state that the bridge and the fetch leave. -/
theorem fatalStepCommitsNothing : Obligations.FatalStepCommitsNothing := by
  intro s hl hs
  rw [step_of_ready hl hs]
  refine ⟨fun v hi => ?_, fun hi hend => ?_⟩
  · rw [hi, exec_trapOther, handlerState_pc]
    exact ⟨_, rfl, rfl, rfl, rfl, handlerState_cycles s, handlerState_regs s, handlerState_cond s, handlerState_out s,
      handlerState_loaded s, handlerState_kbq s, handlerState_read s⟩
  · rw [hi]
    exact exec_trapPuts_of_no_end (by simpa [putsStart] using hend)

/-- Settles O46, by `exec_next_or_endless_puts` in a ready Machine; any other changes nothing. -/
theorem onlyEndlessPutsHasNoSuccessor : Obligations.OnlyEndlessPutsHasNoSuccessor := by
  intro s
  obtain ⟨hl, hs, hstep⟩ | ⟨-, hstep⟩ := step_cases s <;> rw [hstep]
  · obtain hnext | ⟨hi, hfault, hend⟩ := exec_next_or_endless_puts (nextInstr s) (handlerState s)
    · exact .inl hnext
    · exact .inr ⟨hfault, hl, hs, hi, by simpa [putsStart] using hend⟩
  · exact .inl ⟨s, rfl⟩

/-- Settles O41: the instruction is what the fetched word decodes to, and an encoding decodes to what it encodes. -/
theorem stepRunsTheDecodedInstruction : Obligations.StepRunsTheDecodedInstruction := by
  intro s hl hs
  have hstep : ∀ w, (bridge s).mem.read s.pc = w → step s = exec (decode w) (handlerState s) := fun w hw => by
    rw [step_of_ready hl hs, nextInstr_eq, hw]
  refine ⟨fun i hwf hi => ?_, hstep, handlerState_pc s, handlerState_regs s, handlerState_cond s, handlerState_kbq s,
    handlerState_out s, handlerState_cycles s, handlerState_read s⟩
  rw [hstep _ hi, decodeOfEncodeIsIdentity i hwf]

/-- Settles O44: without Ready a step is no step, a load moves Idle only, a stop request Ready only. -/
theorem endedMachineOnlyLeavesByReset : Obligations.EndedMachineOnlyLeavesByReset := by
  refine ⟨fun s hl => step_of_not_ready (.inl hl), fun s hs => ⟨step_of_not_ready (.inr (by simp [hs])), stepReturn_of_idle hs⟩,
    fun s hs => ?_, fun s e hs => ⟨step_of_not_ready (.inr (by simp [hs])), by simp [State.stepReturn, hs]⟩, fun s hs => ?_⟩
  · obtain hs | hs := hs <;> exact ⟨step_of_not_ready (.inr (by simp [hs])), by simp [State.stepReturn, hs]⟩
  · have ⟨hidle, hready⟩ : s.status ≠ .idle ∧ s.status ≠ .ready := by obtain hs | hs | ⟨e, hs⟩ := hs <;> simp [hs]
    refine ⟨fun origin words t h => ?_, fun bs => rfl, congrArg State.status (if_neg hready), fun mid t h => ?_,
      fun hl => by simp [hl]⟩
    · obtain ⟨-, rfl⟩ := load_eq_ok h
      exact if_neg hidle
    · obtain rfl := Host.Outcome.next.inj ((cycle_of_not_ready mid (.inr hready)).symm.trans h)
      rfl

/-! ### The statements about `run` -/

/-- Settles O57, by `run_eq_returned`; a state that is not Ready reports something else than halted = false. -/
theorem runReturnsOnlyWhenEnded : Obligations.RunReturnsOnlyWhenEnded := by
  intro inputs s r t hinv h
  obtain ⟨hended, rfl⟩ := run_eq_returned hinv h
  exact ⟨hended, rfl, mt stepReturn_eq_halted_false_iff.mp hended⟩

/-- Settles O45: the missing program is the first thing that `step` and `run` look at. -/
theorem noProgramLoadedBeforeALoad : Obligations.NoProgramLoadedBeforeALoad :=
  fun _ hl hs => ⟨step_of_not_ready (.inl hl), stepReturn_of_idle hs, fun _ rest => run_of_not_loaded rest hl⟩

/-- Settles O56, by the equations of one iteration. -/
theorem runHonoursStopsBetweenSteps : Obligations.RunHonoursStopsBetweenSteps := by
  intro s i rest hl hs
  refine ⟨fun hstop => ?_, fun hstop t h => ?_⟩
  · rw [run_of_stop rest hl hstop]
    simp [honourStop, hs, State.stepReturn]
  · rw [run_of_next rest hl hstop h]
    exact ⟨fun hready => if_pos hready, fun hended => if_neg hended⟩

end Sys2Proof.Machine

/-! PROOFS of the family 70_reset_and_hazards.md: construction and `reset()` (R280, R282), what a load writes and what an image is
(R289, R290), the word under the fetch (R292), and that an unread byte is kept (R297). -/

namespace Sys2Proof.Machine

/-! ### The words a load writes (R289) -/

/-- Writing words in order changes no cell but theirs. -/
theorem Memory.read_writeWords_other {words : List Word} {m : Memory} {origin a : Word}
    (h : ∀ k < words.length, a ≠ origin + BitVec.ofNat 16 k) : (m.writeWords origin words).read a = m.read a := by
  induction words generalizing m origin with
  | nil => rfl
  | cons w rest ih =>
    have hfirst : a ≠ origin := by simpa using h 0 (Nat.succ_pos _)
    have hrest : ∀ k < rest.length, a ≠ origin + 1#16 + BitVec.ofNat 16 k := fun k hk => by
      rw [add_one_add_ofNat]
      exact h (k + 1) (Nat.succ_lt_succ hk)
    exact (ih hrest).trans (Memory.read_write_other m w hfirst)

/-- No more words than there are addresses do not overwrite each other. -/
theorem Memory.read_writeWords_same {words : List Word} {m : Memory} {origin : Word} (hlen : words.length ≤ memorySize)
    {k : Nat} (hk : k < words.length) : (m.writeWords origin words).read (origin + BitVec.ofNat 16 k) = words[k] := by
  induction words generalizing m origin k with
  | nil => cases hk
  | cons w rest ih =>
    cases k with
    | zero =>
      have hrest : ∀ k < rest.length, origin ≠ origin + 1#16 + BitVec.ofNat 16 k := fun k hk he => by
        simp only [List.length_cons, memorySize] at hlen
        rw [add_one_add_ofNat] at he
        have htoNat := congrArg BitVec.toNat he
        rw [BitVec.toNat_add, BitVec.toNat_ofNat] at htoNat
        omega
      rw [BitVec.add_zero]
      exact (Memory.read_writeWords_other hrest).trans (Memory.read_write_same m origin w)
    | succ k =>
      rw [← add_one_add_ofNat]
      exact ih (Nat.le_of_succ_le hlen) (Nat.lt_of_succ_lt_succ hk)

theorem toNat_add_ofNat_of_le {a : Word} {k n : Nat} (hk : k < n) (hfit : a.toNat + n ≤ memorySize) :
    (a + BitVec.ofNat 16 k).toNat = a.toNat + k := by
  unfold memorySize at hfit
  rw [BitVec.toNat_add, BitVec.toNat_ofNat]
  omega

theorem load_of_fits {origin : Word} {words : List Word} (s : State) (h : origin.toNat + words.length ≤ memorySize) :
    load origin words s = .ok { s with
      mem := s.mem.writeWords origin words
      loaded := true
      status := if s.status = .idle then .ready else s.status } :=
  if_neg (Nat.not_lt_of_le h)

theorem load_of_too_large {origin : Word} {words : List Word} (s : State) (h : origin.toNat + words.length > memorySize) :
    load origin words s = .error .imageTooLarge :=
  if_pos h

/-- Settles O33, by what `writeWords` reads as inside and outside the words' cells. -/
theorem loadWritesItsWords : Obligations.LoadWritesItsWords := by
  refine fun origin words s => ⟨load_of_too_large s, fun hfit => ?_⟩
  have houtside : ∀ a : Word, a.toNat < origin.toNat ∨ origin.toNat + words.length ≤ a.toNat →
      (s.mem.writeWords origin words).read a = s.mem.read a := fun a ha => by
    refine Memory.read_writeWords_other fun k hk he => ?_
    have hk' := toNat_add_ofNat_of_le hk hfit
    rw [← he] at hk'
    omega
  exact ⟨_, load_of_fits s hfit, fun k hk => Memory.read_writeWords_same (Nat.le_of_add_left_le hfit) hk, houtside, rfl,
    fun hidle => if_pos hidle, fun hidle => if_neg hidle, rfl, rfl, rfl, rfl, rfl, rfl, rfl⟩

/-! ### Images (R290) -/

/-- The big-endian bytes of words are an image of those words. -/
theorem imageWords_flatMap (words : List Word) :
    imageWords (words.flatMap fun w => [w.extractLsb' 8 8, w.extractLsb' 0 8]) = some words := by
  induction words with
  | nil => rfl
  | cons w rest ih =>
    have hw : w.extractLsb' 8 8 ++ w.extractLsb' 0 8 = w :=
      (BitVec.extractLsb'_append_extractLsb'_eq_extractLsb' (Nat.zero_add 8).symm).trans BitVec.extractLsb'_eq_self
    simp only [List.flatMap_cons, List.cons_append, List.nil_append, imageWords, ih, Option.map_some, hw]

theorem length_of_imageWords {image : List Byte} {words : List Word} (h : imageWords image = some words) :
    image.length = 2 * words.length := by
  induction image using imageWords.induct generalizing words with
  | case1 =>
    obtain rfl := Option.some.inj h
    rfl
  | case2 => cases h
  | case3 high low rest ih =>
    obtain ⟨ws, hws, rfl⟩ := Option.map_eq_some_iff.mp h
    simp only [List.length_cons, ih hws]
    omega

theorem loadImage_of_words {image : List Byte} {origin : Word} {words : List Word} (s : State)
    (h : imageWords image = some (origin :: words)) : loadImage image s = load origin words s := by
  simp only [loadImage, h]

theorem loadImage_of_no_origin {image : List Byte} (s : State) (h : ∀ origin words, imageWords image ≠ some (origin :: words)) :
    loadImage image s = .error .truncatedImage := by
  unfold loadImage
  split
  · next origin words himage => exact absurd himage (h origin words)
  · rfl

/-- Settles O34: the image of words gives them back, and an image with an origin has two bytes for each word. -/
theorem imageIsBigEndian : Obligations.ImageIsBigEndian := by
  refine ⟨fun origin words s => loadImage_of_words s (imageWords_flatMap (origin :: words)), fun image s hshort => ?_⟩
  refine loadImage_of_no_origin s fun origin words h => ?_
  have hlen := length_of_imageWords h
  rw [List.length_cons] at hlen
  omega

/-! ### The keyboard's handshake (R297) -/

/-- Settles O38: with READY set the bridge does nothing and the fetch leaves KBDR, then `exec_read_other`. -/
theorem unreadByteIsKept : Obligations.UnreadByteIsKept := by
  intro s t hready h hchanged
  have hkbdr : kbdrAddr ≠ kbsrAddr := by decide
  have hhandler : (handlerState s).mem.read kbdrAddr = s.mem.read kbdrAddr := by
    rw [handlerState, bridge_eq_self (.inl ((isReady_eq_getLsbD _).trans hready))]
    exact afterRead_read_other s.pc s hkbdr
  by_contra htarget
  obtain ⟨-, -, hstep⟩ | ⟨-, hstep⟩ := step_cases s <;> rw [hstep] at h
  · exact hchanged ((exec_read_other h hkbdr htarget).trans hhandler)
  · exact hchanged (by rw [Host.Outcome.next.inj h])

/-! ### Construction and `reset()` (R280, R282) -/

/-- Settles O31, field by field; `loaded` decides the status. -/
theorem resetTransaction : Obligations.ResetTransaction := by
  rintro s _ rfl
  exact ⟨rfl, rfl, rfl, rfl, rfl, fun hl => by simp [hl], fun hl => by simp [hl], fun _ => rfl, fun _ => rfl, rfl, rfl, rfl,
    rfl⟩

/-- Settles O32: construction writes the two device cells over MEM_INIT, and the state after reset is made of its own registers
and an empty MEM_INIT. -/
theorem constructedMachine : Obligations.ConstructedMachine := by
  refine ⟨?_, State.reset.regs, [], paramsInit, rfl⟩
  rintro regInit memInit params _ rfl
  have hmem : ∀ a, (construct regInit memInit params).mem.read a =
      if a = kbdrAddr then 0#16 else if a = kbsrAddr then 0#16 else memInit.read a := fun a => by
    simp only [construct, Memory.read_write]
  refine ⟨fun _ => rfl, rfl, rfl, fun a hkbsr hkbdr => ?_, hmem kbsrAddr, hmem kbdrAddr, rfl, rfl, rfl, rfl, rfl, rfl⟩
  exact (hmem a).trans ((if_neg hkbdr).trans (if_neg hkbsr))

/-! ### The word under the fetch (R292, log entry 8) -/

/-- The bridge leaves the placed word: in a device cell the queue is empty, and it writes no other cell. -/
theorem bridge_placeWord_read (w : Word) (s : State) : (bridge (placeWord w s)).mem.read s.pc = w := by
  have hplaced : (placeWord w s).mem.read s.pc = w := Memory.read_write_same ..
  by_cases hdevice : s.pc = kbsrAddr ∨ s.pc = kbdrAddr
  · have hkbq : (placeWord w s).kbq = [] := if_pos hdevice
    rw [bridge_eq_self (.inr hkbq), hplaced]
  · obtain ⟨hkbsr, hkbdr⟩ := not_or.mp hdevice
    rw [bridge_read_other _ hkbsr hkbdr, hplaced]

/-- Settles O42: the placed word is the one the step fetches. -/
theorem placedWordIsTheNextInstruction : Obligations.PlacedWordIsTheNextInstruction := by
  intro s w hw
  refine ⟨if_pos hw, ?_, handlerState_pc _, handlerState_regs _⟩
  have hnext : nextInstr (s.withFetchWord 16 w) = decode (BitVec.ofNat 16 w) :=
    (nextInstr_eq _).trans (congrArg decode (bridge_placeWord_read _ s))
  rw [step_of_ready rfl rfl, hnext]

end Sys2Proof.Machine
